-- ==== Sys2Proof/Word.lean ====
section
/-! DEFINITION. The word types of the CHIP-8 core (00_scope.md R3 to R5): every quantity the spec gives a width in bits is
a bit vector of that width, unsigned. -/

namespace Sys2Proof

/-- A byte: a V register, a timer, a memory cell, an immediate NN (R4, R10, R19). -/
abbrev Byte := BitVec 8

/-- A 4-bit field of the instruction word: a register number X or Y, a height N, a key index (R4, R5, R22). -/
abbrev Nibble := BitVec 4

/-- A 12-bit value: the address register I and the immediate NNN (R14, R62). -/
abbrev Addr := BitVec 12

/-- A 13-bit instruction pointer or return address (R13, R15; the spec's decision D1, log 4). -/
abbrev Pc := BitVec 13

/-- A 16-bit instruction word (R60). -/
abbrev Word16 := BitVec 16

end Sys2Proof
end

