-- ==== Sys2Proof/Syntax.lean ====
section
/-! DEFINITION. The instruction set as syntax: one constructor for each of the 35 rows of 30_encoding.md R65. A register
number is the nibble that names it; immediates keep the width of their field (R62). -/

namespace Sys2Proof

/-- The 35 instructions of R65, in the order of opcode_table.json. -/
inductive Instr where
  /-- `00E0` CLS (R130) -/
  | cls
  /-- `00EE` RET (R81) -/
  | ret
  /-- `0NNN` SYS, the refused legacy host call (R82) -/
  | sys (nnn : Addr)
  /-- `1NNN` JP NNN (R83) -/
  | jp (nnn : Addr)
  /-- `2NNN` CALL NNN (R84) -/
  | call (nnn : Addr)
  /-- `3XNN` SE Vx, NN (R85) -/
  | seVxNn (x : Nibble) (nn : Byte)
  /-- `4XNN` SNE Vx, NN (R86) -/
  | sneVxNn (x : Nibble) (nn : Byte)
  /-- `5XY0` SE Vx, Vy (R87) -/
  | seVxVy (x y : Nibble)
  /-- `6XNN` LD Vx, NN (R102) -/
  | ldVxNn (x : Nibble) (nn : Byte)
  /-- `7XNN` ADD Vx, NN (R103) -/
  | addVxNn (x : Nibble) (nn : Byte)
  /-- `8XY0` LD Vx, Vy (R104) -/
  | ldVxVy (x y : Nibble)
  /-- `8XY1` OR Vx, Vy (R105) -/
  | orVxVy (x y : Nibble)
  /-- `8XY2` AND Vx, Vy (R106) -/
  | andVxVy (x y : Nibble)
  /-- `8XY3` XOR Vx, Vy (R107) -/
  | xorVxVy (x y : Nibble)
  /-- `8XY4` ADD Vx, Vy (R108) -/
  | addVxVy (x y : Nibble)
  /-- `8XY5` SUB Vx, Vy (R109) -/
  | subVxVy (x y : Nibble)
  /-- `8XY6` SHR Vx; Y is decoded and ignored (R110, R68) -/
  | shrVx (x y : Nibble)
  /-- `8XY7` SUBN Vx, Vy (R111) -/
  | subnVxVy (x y : Nibble)
  /-- `8XYE` SHL Vx; Y is decoded and ignored (R112, R68) -/
  | shlVx (x y : Nibble)
  /-- `9XY0` SNE Vx, Vy (R88) -/
  | sneVxVy (x y : Nibble)
  /-- `ANNN` LD I, NNN (R120) -/
  | ldINnn (nnn : Addr)
  /-- `BNNN` JP V0, NNN (R89) -/
  | jpV0Nnn (nnn : Addr)
  /-- `CXNN` RND Vx, NN (R113) -/
  | rndVxNn (x : Nibble) (nn : Byte)
  /-- `DXYN` DRW Vx, Vy, N (R132) -/
  | drwVxVyN (x y n : Nibble)
  /-- `EX9E` SKP Vx (R140) -/
  | skpVx (x : Nibble)
  /-- `EXA1` SKNP Vx (R141) -/
  | sknpVx (x : Nibble)
  /-- `FX07` LD Vx, DT (R142) -/
  | ldVxDt (x : Nibble)
  /-- `FX0A` LD Vx, K (R143) -/
  | ldVxK (x : Nibble)
  /-- `FX15` LD DT, Vx (R144) -/
  | ldDtVx (x : Nibble)
  /-- `FX18` LD ST, Vx (R145) -/
  | ldStVx (x : Nibble)
  /-- `FX1E` ADD I, Vx (R121) -/
  | addIVx (x : Nibble)
  /-- `FX29` LD F, Vx (R122) -/
  | ldFVx (x : Nibble)
  /-- `FX33` LD B, Vx (R123) -/
  | ldBVx (x : Nibble)
  /-- `FX55` LD [I], Vx (R124) -/
  | ldMemVx (x : Nibble)
  /-- `FX65` LD Vx, [I] (R125) -/
  | ldVxMem (x : Nibble)
  deriving DecidableEq, Repr

end Sys2Proof
end

