-- ==== Sys2Proof/WellFormed.lean ====
section
/-! DEFINITION. Which terms of `Instr` are instructions. The types already bound every field; what is left is the legacy
family, whose NNN is restricted by 40_flow.md R82 and 30_encoding.md R67. -/

namespace Sys2Proof

/-- The NNN of a legacy host call: a nonzero low byte, and not one of the two words `00E0` and `00EE` (R67, R82). -/
def sysOperandOk (nnn : Addr) : Bool :=
  nnn.setWidth 8 != 0#8 && nnn != 0x0E0#12 && nnn != 0x0EE#12

/-- An instruction is well formed if its words decode to it (R64): only SYS has an operand that could belong to another row
or to no row. -/
def Instr.wf : Instr → Bool
  | .sys nnn => sysOperandOk nnn
  | .cls | .ret | .jp _ | .call _ | .seVxNn _ _ | .sneVxNn _ _ | .seVxVy _ _ | .ldVxNn _ _ | .addVxNn _ _ | .ldVxVy _ _
  | .orVxVy _ _ | .andVxVy _ _ | .xorVxVy _ _ | .addVxVy _ _ | .subVxVy _ _ | .shrVx _ _ | .subnVxVy _ _ | .shlVx _ _
  | .sneVxVy _ _ | .ldINnn _ | .jpV0Nnn _ | .rndVxNn _ _ | .drwVxVyN _ _ _ | .skpVx _ | .sknpVx _ | .ldVxDt _ | .ldVxK _
  | .ldDtVx _ | .ldStVx _ | .addIVx _ | .ldFVx _ | .ldBVx _ | .ldMemVx _ | .ldVxMem _ => true

end Sys2Proof
end

