-- ==== Sys2Proof/Decode.lean ====
section
/-! DEFINITION. Decoding (30_encoding.md R60 to R67), total on words and on byte lists, rejecting by name; then the encoder,
written from the formats of R61 and the rows of R65. The numbers of 26 rows are from general knowledge (G1, log 2). -/

namespace Sys2Proof

/-- Why a byte list decodes to no instruction. -/
inductive DecodeError where
  /-- the word matches no row of R65 (R66) -/
  | invalidInstruction
  /-- fewer than two bytes: no word to decode; the machine's fetch never asks for that (R42) -/
  | truncated
  deriving DecidableEq, Repr

/-! ## The fields of a word (R5, R60, R62) -/

/-- `f1 = w[15:12]` -/
def f1 (w : Word16) : Nibble := w.extractLsb' 12 4
/-- `f2 = w[11:8]`, the register number X -/
def f2 (w : Word16) : Nibble := w.extractLsb' 8 4
/-- `f3 = w[7:4]`, the register number Y -/
def f3 (w : Word16) : Nibble := w.extractLsb' 4 4
/-- `f4 = w[3:0]`, the nibble literal N -/
def f4 (w : Word16) : Nibble := w.extractLsb' 0 4
/-- `NN = w[7:0]` -/
def immNN (w : Word16) : Byte := w.extractLsb' 0 8
/-- `NNN = w[11:0]` -/
def immNNN (w : Word16) : Addr := w.extractLsb' 0 12

/-! ## Decode (R64, first match wins) -/

/-- The `0` family (R64, R66, R67; the order is the spec's resolution C3 and decision D6, log 9). -/
def decode0 (w : Word16) : Except DecodeError Instr :=
  if w = 0x00E0#16 then .ok .cls
  else if w = 0x00EE#16 then .ok .ret
  else if immNN w = 0#8 then .error .invalidInstruction
  else .ok (.sys (immNNN w))

/-- The `8` family, by its function nibble N (R64). -/
def decode8 (w : Word16) : Except DecodeError Instr :=
  match (f4 w).toNat with
  | 0x0 => .ok (.ldVxVy (f2 w) (f3 w))
  | 0x1 => .ok (.orVxVy (f2 w) (f3 w))
  | 0x2 => .ok (.andVxVy (f2 w) (f3 w))
  | 0x3 => .ok (.xorVxVy (f2 w) (f3 w))
  | 0x4 => .ok (.addVxVy (f2 w) (f3 w))
  | 0x5 => .ok (.subVxVy (f2 w) (f3 w))
  | 0x6 => .ok (.shrVx (f2 w) (f3 w))
  | 0x7 => .ok (.subnVxVy (f2 w) (f3 w))
  | 0xE => .ok (.shlVx (f2 w) (f3 w))
  | _ => .error .invalidInstruction

/-- The `E` family, by its low byte NN (R64). -/
def decodeE (w : Word16) : Except DecodeError Instr :=
  match (immNN w).toNat with
  | 0x9E => .ok (.skpVx (f2 w))
  | 0xA1 => .ok (.sknpVx (f2 w))
  | _ => .error .invalidInstruction

/-- The `F` family, by its low byte NN (R64). -/
def decodeF (w : Word16) : Except DecodeError Instr :=
  match (immNN w).toNat with
  | 0x07 => .ok (.ldVxDt (f2 w))
  | 0x0A => .ok (.ldVxK (f2 w))
  | 0x15 => .ok (.ldDtVx (f2 w))
  | 0x18 => .ok (.ldStVx (f2 w))
  | 0x1E => .ok (.addIVx (f2 w))
  | 0x29 => .ok (.ldFVx (f2 w))
  | 0x33 => .ok (.ldBVx (f2 w))
  | 0x55 => .ok (.ldMemVx (f2 w))
  | 0x65 => .ok (.ldVxMem (f2 w))
  | _ => .error .invalidInstruction

/-- `5XY0` and `9XY0` need N = 0 (R64, D7). -/
def decodeXY0 (w : Word16) (i : Instr) : Except DecodeError Instr :=
  if f4 w = 0#4 then .ok i else .error .invalidInstruction

/-- `Decode(w)` of R64. The legacy family decodes to `sys`, whose meaning raises UnsupportedLegacyCall (R82). -/
def decodeWord (w : Word16) : Except DecodeError Instr :=
  match (f1 w).toNat with
  | 0x0 => decode0 w
  | 0x1 => .ok (.jp (immNNN w))
  | 0x2 => .ok (.call (immNNN w))
  | 0x3 => .ok (.seVxNn (f2 w) (immNN w))
  | 0x4 => .ok (.sneVxNn (f2 w) (immNN w))
  | 0x5 => decodeXY0 w (.seVxVy (f2 w) (f3 w))
  | 0x6 => .ok (.ldVxNn (f2 w) (immNN w))
  | 0x7 => .ok (.addVxNn (f2 w) (immNN w))
  | 0x8 => decode8 w
  | 0x9 => decodeXY0 w (.sneVxVy (f2 w) (f3 w))
  | 0xA => .ok (.ldINnn (immNNN w))
  | 0xB => .ok (.jpV0Nnn (immNNN w))
  | 0xC => .ok (.rndVxNn (f2 w) (immNN w))
  | 0xD => .ok (.drwVxVyN (f2 w) (f3 w) (f4 w))
  | 0xE => decodeE w
  | _ => decodeF w

/-- The word made of two bytes, the one at the lower address first: big-endian (20_memory.md R41). -/
def wordOfBytes (hi lo : Byte) : Word16 := hi ++ lo

/-- Decoding the first instruction of a byte list; the rest of the list is returned. -/
def decode : List Byte → Except DecodeError (Instr × List Byte)
  | hi :: lo :: rest =>
    match decodeWord (wordOfBytes hi lo) with
    | .ok i => .ok (i, rest)
    | .error e => .error e
  | _ => .error .truncated

/-! ## Encode (the formats of R61, the rows of R65) -/

/-- format NNN -/
def wordNNN (op : Nibble) (nnn : Addr) : Word16 := op ++ nnn
/-- formats XNN and X: an opcode nibble, X, and a byte -/
def wordXNN (op x : Nibble) (nn : Byte) : Word16 := op ++ x ++ nn
/-- formats XY and XYN: four nibbles -/
def wordXYN (op x y n : Nibble) : Word16 := op ++ x ++ y ++ n

/-- The word of an instruction. -/
def encodeWord : Instr → Word16
  | .cls => 0x00E0#16
  | .ret => 0x00EE#16
  | .sys nnn => wordNNN 0x0#4 nnn
  | .jp nnn => wordNNN 0x1#4 nnn
  | .call nnn => wordNNN 0x2#4 nnn
  | .seVxNn x nn => wordXNN 0x3#4 x nn
  | .sneVxNn x nn => wordXNN 0x4#4 x nn
  | .seVxVy x y => wordXYN 0x5#4 x y 0x0#4
  | .ldVxNn x nn => wordXNN 0x6#4 x nn
  | .addVxNn x nn => wordXNN 0x7#4 x nn
  | .ldVxVy x y => wordXYN 0x8#4 x y 0x0#4
  | .orVxVy x y => wordXYN 0x8#4 x y 0x1#4
  | .andVxVy x y => wordXYN 0x8#4 x y 0x2#4
  | .xorVxVy x y => wordXYN 0x8#4 x y 0x3#4
  | .addVxVy x y => wordXYN 0x8#4 x y 0x4#4
  | .subVxVy x y => wordXYN 0x8#4 x y 0x5#4
  | .shrVx x y => wordXYN 0x8#4 x y 0x6#4
  | .subnVxVy x y => wordXYN 0x8#4 x y 0x7#4
  | .shlVx x y => wordXYN 0x8#4 x y 0xE#4
  | .sneVxVy x y => wordXYN 0x9#4 x y 0x0#4
  | .ldINnn nnn => wordNNN 0xA#4 nnn
  | .jpV0Nnn nnn => wordNNN 0xB#4 nnn
  | .rndVxNn x nn => wordXNN 0xC#4 x nn
  | .drwVxVyN x y n => wordXYN 0xD#4 x y n
  | .skpVx x => wordXNN 0xE#4 x 0x9E#8
  | .sknpVx x => wordXNN 0xE#4 x 0xA1#8
  | .ldVxDt x => wordXNN 0xF#4 x 0x07#8
  | .ldVxK x => wordXNN 0xF#4 x 0x0A#8
  | .ldDtVx x => wordXNN 0xF#4 x 0x15#8
  | .ldStVx x => wordXNN 0xF#4 x 0x18#8
  | .addIVx x => wordXNN 0xF#4 x 0x1E#8
  | .ldFVx x => wordXNN 0xF#4 x 0x29#8
  | .ldBVx x => wordXNN 0xF#4 x 0x33#8
  | .ldMemVx x => wordXNN 0xF#4 x 0x55#8
  | .ldVxMem x => wordXNN 0xF#4 x 0x65#8

/-- The two bytes of a word as memory holds them, high byte first (R41). -/
def bytesOfWord (w : Word16) : List Byte := [w.extractLsb' 8 8, w.extractLsb' 0 8]

/-- The bytes of an instruction, the one at the lower address first. -/
def encode (i : Instr) : List Byte := bytesOfWord (encodeWord i)

/-! ## The host's entry -/

/-- The first word of a table word `w` of `nbits` bits: the bits above `nbits` are 0. -/
def tableWord (nbits w : Nat) : Word16 := BitVec.ofNat 16 (w % 2 ^ nbits)

/-- What the decoder reads from the bytes of a table word. -/
def decodeTableWord (nbits w : Nat) : Option Instr :=
  match decode (bytesOfWord (tableWord nbits w)) with
  | .ok (i, _) => some i
  | .error _ => none

end Sys2Proof
end

