-- ==== Sys2Proof/Config.lean ====
section
/-! DEFINITION. The parameters of the core (00_scope.md R3) and its one free value. The parameter FONT is an input of the
step, any 80 bytes (10_state.md R30): its type and its default table (20_memory.md R47) stand in Machine/Memory.lean, and the state holds
the one in use (log 33). -/

namespace Sys2Proof.Config

/-- `MEM_SIZE`: bytes of memory, addresses 0x000 to 0xFFF (R3). -/
abbrev memSize : Nat := 4096

/-- `PROG_BASE`: load address and entry point (R3). -/
abbrev progBase : Nat := 0x200

/-- `PROG_MAX`: the largest loadable program in bytes (R3). -/
abbrev progMax : Nat := 3584

/-- `STACK_DEPTH`: return-address slots (R3, R15). -/
abbrev stackDepth : Nat := 16

/-- `DISP_W`: display columns (R3, R20). -/
abbrev dispW : Nat := 64

/-- `DISP_H`: display rows (R3, R20). -/
abbrev dispH : Nat := 32

/-- `FONT_SIZE`: 16 glyphs of 5 bytes at address 0 (R3, R47). -/
abbrev fontSize : Nat := 80

/-- `draw8()`: the free byte of the n-th execution of CXNN (00_scope.md R6, 41_alu.md R113, D20, U3; log 10). It has no
body: nothing can be proved of its value, and no law relates two draws. -/
opaque draw8 : Nat → Byte

end Sys2Proof.Config
end

