-- ==== Sys2Proof/Machine/Memory.lean ====
section
/-! DEFINITION. Memory (20_memory.md): 4096 bytes held as a list of (address, byte) pairs in one canonical form. An address
that is not listed reads as the reset content of R46. -/

namespace Sys2Proof.Machine

/-- The parameter `FONT`: 80 bytes, glyph `g` at offset `5 * g` (R47, U6; log 33). -/
abbrev Font := Vector Byte Config.fontSize

/-- The bytes of the default table of R47, from general knowledge (D9, G2; log 1). -/
def defaultGlyphs : List Byte :=
  [0xF0#8, 0x90#8, 0x90#8, 0x90#8, 0xF0#8] ++ [0x20#8, 0x60#8, 0x20#8, 0x20#8, 0x70#8] ++
  [0xF0#8, 0x10#8, 0xF0#8, 0x80#8, 0xF0#8] ++ [0xF0#8, 0x10#8, 0xF0#8, 0x10#8, 0xF0#8] ++
  [0x90#8, 0x90#8, 0xF0#8, 0x10#8, 0x10#8] ++ [0xF0#8, 0x80#8, 0xF0#8, 0x10#8, 0xF0#8] ++
  [0xF0#8, 0x80#8, 0xF0#8, 0x90#8, 0xF0#8] ++ [0xF0#8, 0x10#8, 0x20#8, 0x40#8, 0x40#8] ++
  [0xF0#8, 0x90#8, 0xF0#8, 0x90#8, 0xF0#8] ++ [0xF0#8, 0x90#8, 0xF0#8, 0x10#8, 0xF0#8] ++
  [0xF0#8, 0x90#8, 0xF0#8, 0x90#8, 0x90#8] ++ [0xE0#8, 0x90#8, 0xE0#8, 0x90#8, 0xE0#8] ++
  [0xF0#8, 0x80#8, 0x80#8, 0x80#8, 0xF0#8] ++ [0xE0#8, 0x90#8, 0x90#8, 0x90#8, 0xE0#8] ++
  [0xF0#8, 0x80#8, 0xF0#8, 0x80#8, 0xF0#8] ++ [0xF0#8, 0x80#8, 0xF0#8, 0x80#8, 0x80#8]

/-- The default `FONT` (R47; log 1). -/
def defaultFont : Font := ⟨defaultGlyphs.toArray, rfl⟩

/-- `MEM[a]` after `reset`: FONT at 0x000..0x04F and 0 above (R46). It is what an unlisted address reads as (log 27). -/
def resetByte (f : Font) (a : Nat) : Byte := if h : a < Config.fontSize then f[a] else 0#8

/-- Memory: the bytes that differ from the reset content, by strictly rising address. -/
abbrev Memory := List Host.Cell

/-- `MemRead(a, 1)`. The bounds of R42 and R44 are checked by whoever calls. -/
def Memory.read (f : Font) : Memory → Nat → Byte
  | [], a => resetByte f a
  | (b, v) :: m, a => if a = b then v else Memory.read f m a

/-- `MemWrite(a, 1, v)`, keeping the canonical form: a byte equal to the reset content is not listed. -/
def Memory.write (f : Font) : Memory → Nat → Byte → Memory
  | [], a, v => if v = resetByte f a then [] else [(a, v)]
  | (b, u) :: m, a, v =>
    if a < b then (if v = resetByte f a then (b, u) :: m else (a, v) :: (b, u) :: m)
    else if a = b then (if v = resetByte f a then m else (a, v) :: m)
    else (b, u) :: Memory.write f m a v

/-- Bytes written at ascending addresses from `a` (R48: `FX33`, `FX55`, `load`). -/
def Memory.writeBytes (f : Font) (m : Memory) (a : Nat) : List Byte → Memory
  | [] => m
  | v :: vs => Memory.writeBytes f (m.write f a v) (a + 1) vs

/-- The `n` bytes at ascending addresses from `a` (R48: `FX65`). -/
def Memory.readBytes (f : Font) (m : Memory) (a : Nat) : Nat → List Byte
  | 0 => []
  | n + 1 => m.read f a :: Memory.readBytes f m (a + 1) n

/-- The canonical form from address `lo` on: addresses strictly rising, inside the address space, and no byte equal to the
reset content of its address. -/
def Memory.wfFrom (f : Font) (lo : Nat) : Memory → Bool
  | [] => true
  | (a, v) :: m => decide (lo ≤ a) && decide (a < Config.memSize) && (v != resetByte f a) && Memory.wfFrom f (a + 1) m

/-- The canonical form of a memory. -/
def Memory.wf (f : Font) (m : Memory) : Bool := Memory.wfFrom f 0 m

end Sys2Proof.Machine
end

