-- ==== Sys2Proof/Machine/State.lean ====
section
/-! DEFINITION. The state of the core (10_state.md), plain data, with the fatal conditions, the host's events and the state
after reset. -/

namespace Sys2Proof.Machine

/-- `RUN` (R24): the core takes steps only in `running`; `waitKey` is the suspension of FX0A. -/
inductive RunState where
  | idle
  | running
  | waitKey
  deriving DecidableEq, Repr

/-- `ERR.kind` (R26, R150): no condition, or one of the six fatal conditions. -/
inductive ErrKind where
  | none
  | invalidInstruction
  | unsupportedLegacyCall
  | stackOverflow
  | stackUnderflow
  | invalidKeyIndex
  | memoryOutOfBounds
  deriving DecidableEq, Repr

/-- `ERR` (R26): the kind, and the PC of the instruction that raised it. -/
structure ErrLatch where
  kind : ErrKind
  addr : Pc
  deriving DecidableEq, Repr

/-- `D[y][x]` (R20): 32 rows of 64 one-bit cells. -/
abbrev Display := Vector (Vector Bool 64) 32

/-- The host's events and status queries (60_exceptions.md R156). A key index is 4 bits wide (R164). -/
inductive HostEvent where
  | reset
  | load (code : List Byte)
  | run
  | halt
  | press (k : Nibble)
  | release (k : Nibble)
  | tick
  | display
  | isProgramLoaded
  | isRunning
  deriving DecidableEq, Repr

/-- One turn of the interleaving (R9): the core's, or a host event. -/
inductive Turn where
  | core
  | host (e : HostEvent)
  deriving DecidableEq, Repr

/-- The state. The first sixteen fields are the spec's (10_state.md), each named as there. The last three are inputs of the step
relation (R30), held here because `step` takes only a state: `font` (log 33), `draws` and `schedule` (log 10,
log 11). -/
structure State where
  /-- `V[0..15]` (R10) -/
  v : Vector Byte 16
  /-- `I` (R14) -/
  i : Addr
  /-- `PC` (R13) -/
  pc : Pc
  /-- `STK[0..15]` (R15) -/
  stk : Vector Pc 16
  /-- `SP`, the number of live entries, 0 to 16 (R16) -/
  sp : Fin 17
  /-- `MEM` (R27) -/
  mem : Memory
  /-- `D` (R20) -/
  display : Display
  /-- `K[0..15]` (R21) -/
  keys : Vector Bool 16
  /-- `LASTKEY`, `none` when not valid (R22) -/
  lastKey : Option Nibble
  /-- `DT` (R19) -/
  dt : Byte
  /-- `ST` (R19) -/
  st : Byte
  /-- `LOADED` (R23) -/
  loaded : Bool
  /-- `RUN` (R24) -/
  run : RunState
  /-- `WAITX` (R25) -/
  waitX : Nibble
  /-- `ERR` (R26) -/
  err : ErrLatch
  /-- `FONT`, the parameter: an input of the step, any 80 bytes, that `reset` installs and no step changes (R30, R47).
  That State holds it is the model's own, DESIGN CHOICE (log 33) -/
  font : Font
  /-- how many free bytes CXNN has drawn: it selects the next one (R113; model's own, log 10) -/
  draws : Nat
  /-- the turns to come; when empty, every turn is the core's (R9, R30; model's own, log 11;
  finite, DESIGN CHOICE, log 32) -/
  schedule : List Turn
  deriving DecidableEq, Repr

/-- Why `step` has no next state. Both mean that no agent has a move: the schedule is empty and the core is not `running`
(R63: "in `Idle` and in `WaitKey` the core has no step"). No instruction raises one; the fatal conditions of R150 are next
states. Both are safe: the model stops where the core waits for its host (log 12). -/
inductive Fault where
  /-- raised by `step` in `idle`: the core is stopped, after reset, `halt` or a fatal condition (R174); safe -/
  | coreIdle
  /-- raised by `step` in `waitKey`: the core waits for a press (R143, R174), a legal wait and no fatal condition; safe -/
  | coreWaiting
  deriving DecidableEq, Repr

/-- Why an instruction has no meaning. -/
inductive Refusal where
  /-- raised by `exec` for an instruction not modelled yet (none is left); safe -/
  | notModelled (mnemonic : String)
  deriving DecidableEq, Repr

/-- What `step` and `exec` answer. -/
abbrev Result := Host.Outcome State Fault Refusal

/-- The state right after `reset` from power-on (10_state.md R34, R35): nothing of memory differs from its reset content;
K and LASTKEY, which `reset` leaves alone, hold their power-on values (R21, R22; log 14). -/
def State.reset : State where
  v := Vector.replicate 16 0#8
  i := 0#12
  pc := 0#13
  stk := Vector.replicate 16 0#13
  sp := 0
  mem := []
  display := Vector.replicate 32 (Vector.replicate 64 false)
  keys := Vector.replicate 16 false
  lastKey := none
  dt := 0#8
  st := 0#8
  loaded := false
  run := .idle
  waitX := 0#4
  err := ⟨.none, 0#13⟩
  font := defaultFont
  draws := 0
  schedule := []

end Sys2Proof.Machine
end

