-- ==== Sys2Proof/Machine/Ops.lean ====
section
/-! DEFINITION. The named operations over registers, memory, PC and the call stack (00_scope.md R6), and taking a fatal
condition, the one exception entry of this machine. Every update of the state by an instruction goes through these. -/

namespace Sys2Proof.Machine

/-- The slot of a register number (R10). -/
def regSlot (x : Nibble) : Fin 16 := ⟨x.toNat, x.isLt⟩

/-- VF, the flag register (R10, R11). -/
def regVF : Nibble := 0xF#4

/-- `V[x]` (R6, R10): no register is hardwired. -/
def State.reg (s : State) (x : Nibble) : Byte := s.v[regSlot x]

/-- `V[x] <- b` (R6, R10). -/
def State.setReg (s : State) (x : Nibble) (b : Byte) : State := { s with v := s.v.set (regSlot x) b }

/-- Registers from number `k` on, written in ascending order (R125). -/
def State.setRegs (s : State) (k : Nat) : List Byte → State
  | [] => s
  | b :: bs => (s.setReg (BitVec.ofNat 4 k) b).setRegs (k + 1) bs

/-- Registers `V[k]` to `V[k + n - 1]` in ascending order (R124). -/
def State.regsFrom (s : State) (k : Nat) : Nat → List Byte
  | 0 => []
  | n + 1 => s.reg (BitVec.ofNat 4 k) :: s.regsFrom (k + 1) n

/-- `I <- a` (R14). -/
def State.setIndex (s : State) (a : Addr) : State := { s with i := a }

/-- `PC <- t`, not masked beyond the register (R13). -/
def State.setPc (s : State) (t : Pc) : State := { s with pc := t }

/-- `MEM` replaced. -/
def State.setMem (s : State) (m : Memory) : State := { s with mem := m }

/-- `MemRead(a, 1)` (R6): the byte last written at `a`, or its reset content (R29, R46). The bounds are checked by whoever reads. -/
def State.readByte (s : State) (a : Nat) : Byte := s.mem.read s.font a

/-- `MemRead(a, 2)` (R6, R41). -/
def State.readWord (s : State) (a : Nat) : Word16 := s.readByte a ++ s.readByte (a + 1)

/-- The `n` bytes at ascending addresses from `a` (R48). -/
def State.readBytes (s : State) (a n : Nat) : List Byte := s.mem.readBytes s.font a n

/-- Bytes written at ascending addresses from `a` (R48). -/
def State.storeBytes (s : State) (a : Nat) (vs : List Byte) : State := s.setMem (s.mem.writeBytes s.font a vs)

/-- `D` replaced. -/
def State.setDisplay (s : State) (d : Display) : State := { s with display := d }

/-- `DT <- b` (R19). -/
def State.setDelay (s : State) (b : Byte) : State := { s with dt := b }

/-- `ST <- b` (R19). -/
def State.setSound (s : State) (b : Byte) : State := { s with st := b }

/-- `npc`, the address of the next sequential word (R63). -/
def State.npc (s : State) : Pc := s.pc + 2#13

/-- The end of an instruction that does not assign `npc` (R63). -/
def State.advance (s : State) : State := s.setPc s.npc

/-- The end of a skip (R90): `npc + 2` if it is taken. -/
def State.skipIf (s : State) (taken : Bool) : State := s.setPc (if taken then s.npc + 2#13 else s.npc)

/-- `Push(t)` (R17); `none` is StackOverflow. -/
def State.push (s : State) (t : Pc) : Option State :=
  if h : s.sp.val < Config.stackDepth then
    some { s with stk := s.stk.set s.sp.val t h, sp := ⟨s.sp.val + 1, Nat.succ_lt_succ h⟩ }
  else none

/-- `Pop()` (R18): the popped value and the state after; the slot keeps its value; `none` is StackUnderflow. -/
def State.pop (s : State) : Option (Pc × State) :=
  match h : s.sp.val with
  | 0 => none
  | n + 1 =>
    have hn : n < 16 := by have := s.sp.isLt; omega
    some (s.stk[n], { s with sp := ⟨n, Nat.lt_succ_of_lt hn⟩ })

/-- `draw8()` (R6, R113): the next free byte, and the state in which it is used up (log 10). -/
def State.drawByte (s : State) : Byte × State := (Config.draw8 s.draws, { s with draws := s.draws + 1 })

/-- Suspension by FX0A, its first half (R143): PC and V stay. -/
def State.suspend (s : State) (x : Nibble) : State := { s with waitX := x, run := .waitKey }

/-- Entry of a fatal condition (60_exceptions.md R152): called on the state before the step, so that every effect of the
step is discarded (D4, log 7). `ERR <- (code, PC)`, `RUN <- Idle`, PC stays. There is no return from it (R157): only the
host's `run`, `reset` or `load` leave the stopped state. -/
def State.raise (s : State) (k : ErrKind) : State := { s with err := ⟨k, s.pc⟩, run := .idle }

/-- The codes of R150. -/
def ErrKind.code : ErrKind → Nat
  | .none => 0
  | .invalidInstruction => 1
  | .unsupportedLegacyCall => 2
  | .stackOverflow => 3
  | .stackUnderflow => 4
  | .invalidKeyIndex => 5
  | .memoryOutOfBounds => 6

/-- A fetch at `a` is legal if and only if `a <= 0xFFE` (R42). -/
def fetchLegal (a : Pc) : Bool := decide (a.toNat ≤ 0xFFE)

/-- The word fetched at PC (R41, R63). -/
def State.fetch (s : State) : Word16 := s.readWord s.pc.toNat

end Sys2Proof.Machine
end

