-- ==== Sys2Proof/Machine/Flags.lean ====
section
/-! DEFINITION. What the six flag writers leave in VF (10_state.md R11, 41_alu.md R100): a value that is always 0 or 1. -/

namespace Sys2Proof.Machine

/-- A flag as VF holds it: 0 or 1 (R11, R100). -/
def flagByte (f : Bool) : Byte := if f then 1#8 else 0#8

/-- Carry of `8XY4`: 1 if and only if `a + b > 255` (R100, R108). -/
def carryOut (a b : Byte) : Bool := decide (a.toNat + b.toNat > 255)

/-- Not-borrow of `a - b`: 1 if and only if `a >= b` (R100, R109, R111). -/
def notBorrow (a b : Byte) : Bool := decide (b.toNat ≤ a.toNat)

/-- The bit that a right shift by one moves out (R110). -/
def shiftedOutLow (a : Byte) : Bool := a.getLsbD 0

/-- The bit that a left shift by one moves out (R112). -/
def shiftedOutHigh (a : Byte) : Bool := a.getLsbD 7

/-- The two writes of a flag-writing instruction in the order of R101: the result to `V[X]`, then the flag to VF. With
X = 0xF the flag is what stays (D3, log 6). -/
def State.setRegFlag (s : State) (x : Nibble) (result : Byte) (flag : Bool) : State :=
  (s.setReg x result).setReg regVF (flagByte flag)

end Sys2Proof.Machine
end

