-- ==== Sys2Proof/Machine/Alu.lean ====
section
/-! DEFINITION. Register, arithmetic, logic, shift and random instructions (41_alu.md). None assigns `npc` and none can raise
a fatal condition. -/

namespace Sys2Proof.Machine

/-- `6XNN` LD Vx, NN (R102). -/
def execLdVxNn (x : Nibble) (nn : Byte) (s : State) : Result := .next (s.setReg x nn).advance

/-- `7XNN` ADD Vx, NN (R103): wraps, no carry anywhere. -/
def execAddVxNn (x : Nibble) (nn : Byte) (s : State) : Result := .next (s.setReg x (s.reg x + nn)).advance

/-- `8XY0` LD Vx, Vy (R104). -/
def execLdVxVy (x y : Nibble) (s : State) : Result := .next (s.setReg x (s.reg y)).advance

/-- `8XY1` OR Vx, Vy (R105): VF is not cleared. -/
def execOrVxVy (x y : Nibble) (s : State) : Result := .next (s.setReg x (s.reg x ||| s.reg y)).advance

/-- `8XY2` AND Vx, Vy (R106). -/
def execAndVxVy (x y : Nibble) (s : State) : Result := .next (s.setReg x (s.reg x &&& s.reg y)).advance

/-- `8XY3` XOR Vx, Vy (R107). -/
def execXorVxVy (x y : Nibble) (s : State) : Result := .next (s.setReg x (s.reg x ^^^ s.reg y)).advance

/-- `8XY4` ADD Vx, Vy (R108). -/
def execAddVxVy (x y : Nibble) (s : State) : Result :=
  .next (s.setRegFlag x (s.reg x + s.reg y) (carryOut (s.reg x) (s.reg y))).advance

/-- `8XY5` SUB Vx, Vy (R109). -/
def execSubVxVy (x y : Nibble) (s : State) : Result :=
  .next (s.setRegFlag x (s.reg x - s.reg y) (notBorrow (s.reg x) (s.reg y))).advance

/-- `8XY6` SHR Vx (R110): the operand is VX; Y is ignored. -/
def execShrVx (x _y : Nibble) (s : State) : Result :=
  .next (s.setRegFlag x (s.reg x >>> 1) (shiftedOutLow (s.reg x))).advance

/-- `8XY7` SUBN Vx, Vy (R111). -/
def execSubnVxVy (x y : Nibble) (s : State) : Result :=
  .next (s.setRegFlag x (s.reg y - s.reg x) (notBorrow (s.reg y) (s.reg x))).advance

/-- `8XYE` SHL Vx (R112): the operand is VX; Y is ignored. -/
def execShlVx (x _y : Nibble) (s : State) : Result :=
  .next (s.setRegFlag x (s.reg x <<< 1) (shiftedOutHigh (s.reg x))).advance

/-- `CXNN` RND Vx, NN (R113): the byte is a free value (log 10). -/
def execRndVxNn (x : Nibble) (nn : Byte) (s : State) : Result :=
  .next (s.drawByte.2.setReg x (nn &&& s.drawByte.1)).advance

end Sys2Proof.Machine
end

