-- ==== Sys2Proof/Machine/Operands.lean ====
section
/-! DEFINITION. Operand forms: I-relative ranges, the key operand, jump targets, the glyph address, the decimal digits and
the sprite bits. Register and immediate operands are read as they stand (30_encoding.md R62). -/

namespace Sys2Proof.Machine

/-- The range check of an I-relative access to `n` bytes (20_memory.md R44, 42_index_memory.md R126): its highest address,
computed on naturals, is at most 0xFFF; a range of no bytes is always legal (D25). -/
def rangeLegal (i : Addr) (n : Nat) : Bool := decide (i.toNat + n ≤ Config.memSize)

/-- An access to `n` bytes at I: `MemoryOutOfBounds` before anything is done, or the instruction's effect (R44, D4). -/
def State.withRange (s : State) (n : Nat) (effect : State) : State :=
  if rangeLegal s.i n then effect else s.raise .memoryOutOfBounds

/-- The key operand of EX9E and EXA1: the whole byte is the key index, not masked; `none` above 15 (R140, D26). -/
def keyOperand (b : Byte) : Option Nibble := if b.toNat ≤ 15 then some (b.setWidth 4) else none

/-- `K[k]` (R21). -/
def State.key (s : State) (k : Nibble) : Bool := s.keys[regSlot k]

/-- The target of 1NNN and 2NNN: NNN, zero-extended (R62, R83). -/
def targetNNN (nnn : Addr) : Pc := nnn.setWidth 13

/-- The target of BNNN: `NNN + zext_13(V[0])`, not masked (R89, D1). -/
def State.targetV0 (s : State) (nnn : Addr) : Pc := nnn.setWidth 13 + (s.reg 0x0#4).setWidth 13

/-- `I + zext_12(V[X])` modulo 4096 (R121). -/
def State.indexPlus (s : State) (x : Nibble) : Addr := s.i + (s.reg x).setWidth 12

/-- `5 * V[X]` modulo 4096: the whole register, not its low nibble (R122, D27). -/
def glyphAddr (b : Byte) : Addr := BitVec.ofNat 12 (5 * b.toNat)

/-- Hundreds, tens and ones of a byte (R123). -/
def bcdDigits (b : Byte) : List Byte :=
  [BitVec.ofNat 8 (b.toNat / 100), BitVec.ofNat 8 (b.toNat / 10 % 10), BitVec.ofNat 8 (b.toNat % 10)]

/-- Sprite column `c` of a sprite byte is bit `7 - c` (R131, D10; log 3). -/
def spriteBit (b : Byte) (c : Nat) : Bool := b.getLsbD (7 - c)

/-- The display column of sprite column `c`: `(V[X] + c) mod 64` (R131). -/
def spriteCol (x0 c : Nat) : Fin 64 := ⟨(x0 + c) % 64, Nat.mod_lt _ (by decide)⟩

end Sys2Proof.Machine
end

