-- ==== Sys2Proof/Machine/Draw.lean ====
section
/-! DEFINITION. The display (10_state.md R20) and its two instructions (43_display.md), in the loop form of R132. -/

namespace Sys2Proof.Machine

/-- `D[y][x]`. -/
def Display.cell (d : Display) (y : Fin 32) (x : Fin 64) : Bool := d[y][x]

/-- `D[y][x] <- b`. -/
def Display.setCell (d : Display) (y : Fin 32) (x : Fin 64) (b : Bool) : Display := d.set y (d[y].set x b)

/-- Every cell 0 (R130). -/
def Display.clear : Display := Vector.replicate 32 (Vector.replicate 64 false)

/-- One sprite cell: XOR into the display cell; a collision if the cell was 1 and becomes 0 (R132). -/
def drawCell (b : Byte) (x0 : Nat) (y : Fin 32) (acc : Display × Bool) (c : Nat) : Display × Bool :=
  let old := Display.cell acc.1 y (spriteCol x0 c)
  (Display.setCell acc.1 y (spriteCol x0 c) (old ^^ spriteBit b c), acc.2 || (old && spriteBit b c))

/-- One sprite row: its byte is read, and its eight cells are drawn unless the row is clipped (R131, R132). -/
def drawRow (byteAt : Nat → Byte) (i x0 y0 : Nat) (acc : Display × Bool) (r : Nat) : Display × Bool :=
  if h : y0 + r < 32 then (List.range 8).foldl (drawCell (byteAt (i + r)) x0 ⟨y0 + r, h⟩) acc else acc

/-- The whole sprite: the display after, and whether any cell collided (R132). -/
def drawSprite (byteAt : Nat → Byte) (i x0 y0 n : Nat) (d : Display) : Display × Bool :=
  (List.range n).foldl (drawRow byteAt i x0 y0) (d, false)

/-- `00E0` CLS (R130). -/
def execCls (s : State) : Result := .next (s.setDisplay Display.clear).advance

/-- `DXYN` DRW Vx, Vy, N (R132): the range is checked before any write, for clipped rows too (D31); coordinates are read
before VF is written; VF is written also when nothing is drawn (D25). -/
def execDrwVxVyN (x y n : Nibble) (s : State) : Result :=
  let drawn := drawSprite s.readByte s.i.toNat (s.reg x).toNat (s.reg y).toNat n.toNat s.display
  .next (s.withRange n.toNat ((s.setDisplay drawn.1).setReg regVF (flagByte drawn.2)).advance)

end Sys2Proof.Machine
end

