-- ==== Sys2Proof/Machine/Flow.lean ====
section
/-! DEFINITION. The control-flow instructions (40_flow.md). Each meaning is called on the state in which PC is the address of
its own word; `npc` is `pc + 2`. -/

namespace Sys2Proof.Machine

/-- `00EE` RET (R81). -/
def execRet (s : State) : Result :=
  match s.pop with
  | some (t, s') => .next (s'.setPc t)
  | none => .next (s.raise .stackUnderflow)

/-- `0NNN` SYS (R82): recognised and refused, by the fatal condition UnsupportedLegacyCall. -/
def execSys (_nnn : Addr) (s : State) : Result := .next (s.raise .unsupportedLegacyCall)

/-- `1NNN` JP NNN (R83). -/
def execJp (nnn : Addr) (s : State) : Result := .next (s.setPc (targetNNN nnn))

/-- `2NNN` CALL NNN (R84). -/
def execCall (nnn : Addr) (s : State) : Result :=
  match s.push s.npc with
  | some s' => .next (s'.setPc (targetNNN nnn))
  | none => .next (s.raise .stackOverflow)

/-- `3XNN` SE Vx, NN (R85). -/
def execSeVxNn (x : Nibble) (nn : Byte) (s : State) : Result := .next (s.skipIf (s.reg x == nn))

/-- `4XNN` SNE Vx, NN (R86). -/
def execSneVxNn (x : Nibble) (nn : Byte) (s : State) : Result := .next (s.skipIf (s.reg x != nn))

/-- `5XY0` SE Vx, Vy (R87). -/
def execSeVxVy (x y : Nibble) (s : State) : Result := .next (s.skipIf (s.reg x == s.reg y))

/-- `9XY0` SNE Vx, Vy (R88). -/
def execSneVxVy (x y : Nibble) (s : State) : Result := .next (s.skipIf (s.reg x != s.reg y))

/-- `BNNN` JP V0, NNN (R89): always V0. -/
def execJpV0Nnn (nnn : Addr) (s : State) : Result := .next (s.setPc (s.targetV0 nnn))

end Sys2Proof.Machine
end

