-- ==== Sys2Proof/Machine/IndexMemory.lean ====
section
/-! DEFINITION. Address-register and memory instructions (42_index_memory.md). I is never changed by an access (R126). -/

namespace Sys2Proof.Machine

/-- `ANNN` LD I, NNN (R120). -/
def execLdINnn (nnn : Addr) (s : State) : Result := .next (s.setIndex nnn).advance

/-- `FX1E` ADD I, Vx (R121): no flag. -/
def execAddIVx (x : Nibble) (s : State) : Result := .next (s.setIndex (s.indexPlus x)).advance

/-- `FX29` LD F, Vx (R122). -/
def execLdFVx (x : Nibble) (s : State) : Result := .next (s.setIndex (glyphAddr (s.reg x))).advance

/-- `FX33` LD B, Vx (R123): three digits at I, I+1, I+2. -/
def execLdBVx (x : Nibble) (s : State) : Result :=
  .next (s.withRange 3 (s.storeBytes s.i.toNat (bcdDigits (s.reg x))).advance)

/-- `FX55` LD [I], Vx (R124): V0 to VX at I, I+1, ... -/
def execLdMemVx (x : Nibble) (s : State) : Result :=
  .next (s.withRange (x.toNat + 1) (s.storeBytes s.i.toNat (s.regsFrom 0 (x.toNat + 1))).advance)

/-- `FX65` LD Vx, [I] (R125): V0 to VX from I, I+1, ... -/
def execLdVxMem (x : Nibble) (s : State) : Result :=
  .next (s.withRange (x.toNat + 1) (s.setRegs 0 (s.readBytes s.i.toNat (x.toNat + 1))).advance)

end Sys2Proof.Machine
end

