-- ==== Sys2Proof/Machine/InputTimers.lean ====
section
/-! DEFINITION. Key and timer instructions (44_input_timers.md). -/

namespace Sys2Proof.Machine

/-- `EX9E` SKP Vx (R140). -/
def execSkpVx (x : Nibble) (s : State) : Result :=
  match keyOperand (s.reg x) with
  | some k => .next (s.skipIf (s.key k))
  | none => .next (s.raise .invalidKeyIndex)

/-- `EXA1` SKNP Vx (R141). -/
def execSknpVx (x : Nibble) (s : State) : Result :=
  match keyOperand (s.reg x) with
  | some k => .next (s.skipIf (!s.key k))
  | none => .next (s.raise .invalidKeyIndex)

/-- `FX07` LD Vx, DT (R142). -/
def execLdVxDt (x : Nibble) (s : State) : Result := .next (s.setReg x s.dt).advance

/-- `FX0A` LD Vx, K (R143), its first half: the second is the host event `press` (60_exceptions.md R162). -/
def execLdVxK (x : Nibble) (s : State) : Result := .next (s.suspend x)

/-- `FX15` LD DT, Vx (R144). -/
def execLdDtVx (x : Nibble) (s : State) : Result := .next (s.setDelay (s.reg x)).advance

/-- `FX18` LD ST, Vx (R145). -/
def execLdStVx (x : Nibble) (s : State) : Result := .next (s.setSound (s.reg x)).advance

end Sys2Proof.Machine
end

