-- ==== Sys2Proof/Machine/Events.lean ====
section
/-! DEFINITION. The host events of 60_exceptions.md R156 and 70_reset_and_hazards.md: each one atomic transition and the
reply the host gets. -/

namespace Sys2Proof.Machine

/-- What an event returns to the host (R156). Replies are not state. -/
inductive Reply where
  /-- the event took place -/
  | done
  /-- the event is not enabled: failure, nothing changed (R170) -/
  | refused
  /-- `load` of a program longer than 3584 bytes: failure, the state is left reset (R194) -/
  | loadTooLarge
  /-- the answer of a status query (R167) -/
  | flag (b : Bool)
  /-- the snapshot of `display` (R166) -/
  | grid (d : Display)
  deriving DecidableEq, Repr

/-- The effect of `reset` (R190): every element to its reset value, K and LASTKEY unchanged; memory holds FONT and zeros, which
is its reset content. FONT, the draws used up and the schedule are no state of the core and stay (log 10, log 11, log 33). -/
def State.resetCore (s : State) : State :=
  { State.reset with keys := s.keys, lastKey := s.lastKey, font := s.font, draws := s.draws, schedule := s.schedule }

/-- The program installed and the entry point set (R191). -/
def State.install (s : State) (code : List Byte) : State :=
  { s.storeBytes Config.progBase code with pc := BitVec.ofNat 13 Config.progBase, loaded := true }

/-- `reset` (R190): enabled in Idle only (R192). -/
def hostReset (s : State) : State × Reply :=
  if s.run = .idle then (s.resetCore, .done) else (s, .refused)

/-- `load(code)` (R191, R192, R194): the reset comes first, also when the load then fails (C9). -/
def hostLoad (code : List Byte) (s : State) : State × Reply :=
  if s.run = .idle then
    if code.length ≤ Config.progMax then (s.resetCore.install code, .done) else (s.resetCore, .loadTooLarge)
  else (s, .refused)

/-- `run` (R168, R170): from Idle with a program loaded; clears ERR and goes on at the current PC. -/
def hostRun (s : State) : State × Reply :=
  if s.run = .idle ∧ s.loaded = true then ({ s with run := .running, err := ⟨.none, 0#13⟩ }, .done) else (s, .refused)

/-- `halt` (R169, R171): a no-op in Idle; a key-wait is abandoned without effect. -/
def hostHalt (s : State) : State × Reply := ({ s with run := .idle }, .done)

/-- A press as the key latch records it (R162, first two lines). -/
def State.latchKey (s : State) (k : Nibble) : State := { s with keys := s.keys.set (regSlot k) true, lastKey := some k }

/-- The second half of FX0A (R143, R162): `V[WAITX] <- k`, `PC <- PC + 2`, `RUN <- Running`. -/
def State.wake (s : State) (k : Nibble) : State :=
  { (s.setReg s.waitX (k.setWidth 8)).advance with run := .running }

/-- `press(k)` (R162): in every run state; ends a key-wait whether or not `K[k]` was already 1 (D16). -/
def hostPress (k : Nibble) (s : State) : State × Reply :=
  if s.run = .waitKey then ((s.latchKey k).wake k, .done) else (s.latchKey k, .done)

/-- `release(k)` (R163). -/
def hostRelease (k : Nibble) (s : State) : State × Reply := ({ s with keys := s.keys.set (regSlot k) false }, .done)

/-- One timer's countdown, saturating at zero (R160). -/
def countDown (b : Byte) : Byte := if b.toNat > 0 then b - 1#8 else b

/-- `tick` (R160): both timers, in every run state (D12). -/
def hostTick (s : State) : State × Reply := ({ s with dt := countDown s.dt, st := countDown s.st }, .done)

/-- `display` (R166): a snapshot. -/
def hostDisplay (s : State) : State × Reply := (s, .grid s.display)

/-- `is_program_loaded` (R167). -/
def hostIsProgramLoaded (s : State) : State × Reply := (s, .flag s.loaded)

/-- `is_running` (R167): true in Running and in WaitKey. -/
def hostIsRunning (s : State) : State × Reply := (s, .flag (s.run != .idle))

/-- One host event (R156). -/
def hostEvent (e : HostEvent) (s : State) : State × Reply :=
  match e with
  | .reset => hostReset s
  | .load code => hostLoad code s
  | .run => hostRun s
  | .halt => hostHalt s
  | .press k => hostPress k s
  | .release k => hostRelease k s
  | .tick => hostTick s
  | .display => hostDisplay s
  | .isProgramLoaded => hostIsProgramLoaded s
  | .isRunning => hostIsRunning s

end Sys2Proof.Machine
end

