-- ==== Sys2Proof/Machine/CoreStep.lean ====
section
/-! DEFINITION. The core's step (30_encoding.md R63), the turn of the interleaving (00_scope.md R9), and the placing of an
instruction where the next step fetches it. Machine/Step.lean only calls these. -/

namespace Sys2Proof.Machine

/-- Decode and execute the fetched word (R63): a word that matches no row raises InvalidInstruction at PC (R66). -/
def State.runWord (s : State) (w : Word16) : Result :=
  match decodeWord w with
  | .ok i => exec i s
  | .error _ => .next (s.raise .invalidInstruction)

/-- The core's step once it is enabled (R63, R154): fetch bounds, decode, execute. -/
def State.fetchAndRun (s : State) : Result :=
  if fetchLegal s.pc then s.runWord s.fetch else .next (s.raise .memoryOutOfBounds)

/-- The core's turn (R63): a step in Running only; in Idle and in WaitKey the core has no step (log 12). -/
def State.coreTurn (s : State) : Result :=
  match s.run with
  | .running => s.fetchAndRun
  | .idle => .fault .coreIdle
  | .waitKey => .fault .coreWaiting

/-- One turn (R9). The head of the schedule moves: the host, by one event, or the core. A scheduled turn of the core that
finds it not enabled passes with no effect, since other turns follow. With no schedule left it is the core's turn, and if it is
not enabled no agent has a move (log 11, log 12).

DESIGN CHOICE, unsafe for claims about infinite runs (log 32): the schedule is finite and after it every turn is the core's, so an
infinite run has only finitely many host events; the spec allows any interleaving under weak fairness of the core (R176, D22, U9). -/
def State.takeTurn (s : State) : Result :=
  match s.schedule with
  | [] => s.coreTurn
  | .host e :: rest => .next (hostEvent e { s with schedule := rest }).1
  | .core :: rest =>
    if s.run = .running then State.coreTurn { s with schedule := rest } else .next { s with schedule := rest }

/-- Where a word is placed so that the next step fetches it: at PC when the machine holds a program and PC is a legal fetch
address, else at the entry point, as `load` would (R191; log 13). -/
def State.fetchPoint (s : State) : Pc :=
  if s.loaded && fetchLegal s.pc then s.pc else BitVec.ofNat 13 Config.progBase

/-- The word stored at the fetch point of a machine that is loaded and running, as after `load` and `run` (R193; log 13),
with no turn before the core's. -/
def State.placeWord (s : State) (w : Word16) : State :=
  { s.storeBytes s.fetchPoint.toNat (bytesOfWord w) with
    pc := s.fetchPoint
    loaded := true
    run := .running
    err := ⟨.none, 0#13⟩
    schedule := [] }

end Sys2Proof.Machine
end

