-- ==== Sys2Proof/Machine/Step.lean ====
section
/-! DEFINITION. One step of the machine: one turn of the interleaving of core and host. -/

namespace Sys2Proof.Machine

/-- One atomic transition (00_scope.md R9): of the core, or of the host where the schedule says so. -/
def step (s : State) : Host.Outcome State Fault Refusal := s.takeTurn

/-- `s` with the instruction of table word `w` (`nbits` bits) where the next step fetches, so that this step runs it (log 13). -/
def State.withFetchWord (s : State) (nbits w : Nat) : State := s.placeWord (tableWord nbits w)

end Sys2Proof.Machine
end

