-- ==== Sys2Proof/Safety.lean ====
section
/-! DEFINITION. What claims speak of: the invariant of the machine, a run that went wrong, the end of a run, power-on, and the
words of a memory. -/

namespace Sys2Proof.Machine

/-- What every step of core or host keeps. Each clause is the spec's: the model's memory form; R24's "`RUN != Idle` implies
`LOADED = 1`"; the values PC can take (R13) and a return address can take (R13, R15); the key-wait's latch against memory
(R25); ERR while the core runs, and what it holds once it has stopped (R26, R152, R169). -/
structure State.Inv (s : State) : Prop where
  memWf : s.mem.wf s.font = true
  runningLoaded : s.run ≠ .idle → s.loaded = true
  pcBound : s.pc.toNat ≤ 0x10FE
  stkBound : ∀ n : Fin 16, s.stk[n].toNat ≤ 0x1000
  waitPc : s.run = .waitKey → s.pc.toNat ≤ 0xFFE
  waitWord : s.run = .waitKey → s.readWord s.pc.toNat = encodeWord (.ldVxK s.waitX)
  errClear : s.run ≠ .idle → s.err = ⟨.none, 0#13⟩
  errNone : s.err.kind = .none → s.err.addr = 0#13
  errAddr : s.err.kind ≠ .none → s.err.addr = s.pc
  errLoaded : s.err.kind ≠ .none → s.loaded = true

/-- "Gone wrong" (60_exceptions.md R153): a fatal condition is latched. -/
def State.GoneWrong (s : State) : Prop := s.err.kind ≠ .none

/-- "A run has ended at `a`" (70_reset_and_hazards.md R195, the spec's own convention D23, log 23): the core runs, PC is `a`,
and the word there is a jump to itself. -/
def State.EndedAt (s : State) (a : Addr) : Prop :=
  s.run = .running ∧ s.pc = targetNNN a ∧ s.readWord a.toNat = encodeWord (.jp a)

/-- Power-on (10_state.md R35): what is fixed before the first `reset`; everything else is any value (log 26). -/
def State.IsPowerOn (s : State) : Prop :=
  s.run = .idle ∧ s.loaded = false ∧ s.keys = Vector.replicate 16 false ∧ s.lastKey = none

/-! ## Frames: what a next state `t` may differ in from `s` -/

/-- Every byte of memory reads as before. -/
def State.SameBytes (s t : State) : Prop := ∀ a, t.readByte a = s.readByte a

/-- Only registers differ, and PC is the next sequential word: nothing else of the state changes, no byte of memory. -/
def State.OnlyRegs (s t : State) : Prop := t = { s with v := t.v, pc := s.pc + 2#13 } ∧ s.SameBytes t

/-- The entry of a fatal condition (60_exceptions.md R152): ERR holds its code and the PC, RUN is Idle, nothing else of the
state changes, no byte of memory. -/
def State.StoppedBy (s t : State) (k : ErrKind) : Prop :=
  t = { s with err := ⟨k, s.pc⟩, run := .idle } ∧ s.SameBytes t

/-! ## Who reads and writes what (10_state.md R28), as tables over the instruction -/

/-- The registers an instruction may write: its destination, VF for the six flag writers (R11), V0 to VX for FX65. -/
def writesReg : Instr → Nibble → Bool
  | .ldVxNn x _, z | .addVxNn x _, z | .ldVxVy x _, z | .orVxVy x _, z | .andVxVy x _, z | .xorVxVy x _, z
  | .rndVxNn x _, z | .ldVxDt x, z => z == x
  | .addVxVy x _, z | .subVxVy x _, z | .shrVx x _, z | .subnVxVy x _, z | .shlVx x _, z => z == x || z == 0xF#4
  | .drwVxVyN _ _ _, z => z == 0xF#4
  | .ldVxMem x, z => decide (z.toNat ≤ x.toNat)
  | _, _ => false

/-- The registers an instruction reads: those its operands name, V0 for BNNN, V0 to VX for FX55. -/
def readsReg : Instr → Nibble → Bool
  | .seVxNn x _, z | .sneVxNn x _, z | .addVxNn x _, z | .shrVx x _, z | .shlVx x _, z | .skpVx x, z | .sknpVx x, z
  | .ldDtVx x, z | .ldStVx x, z | .addIVx x, z | .ldFVx x, z | .ldBVx x, z => z == x
  | .ldVxVy _ y, z => z == y
  | .seVxVy x y, z | .sneVxVy x y, z | .orVxVy x y, z | .andVxVy x y, z | .xorVxVy x y, z | .addVxVy x y, z
  | .subVxVy x y, z | .subnVxVy x y, z | .drwVxVyN x y _, z => z == x || z == y
  | .jpV0Nnn _, z => z == 0#4
  | .ldMemVx x, z => decide (z.toNat ≤ x.toNat)
  | _, _ => false

/-- The six instructions that write VF as a flag (R11). -/
def writesFlag : Instr → Bool
  | .addVxVy _ _ | .subVxVy _ _ | .shrVx _ _ | .subnVxVy _ _ | .shlVx _ _ | .drwVxVyN _ _ _ => true
  | _ => false

/-- The instructions that write I (R14). -/
def writesIndex : Instr → Bool
  | .ldINnn _ | .addIVx _ | .ldFVx _ => true
  | _ => false

/-- The instructions that touch the call stack (R15). -/
def usesStack : Instr → Bool
  | .call _ | .ret => true
  | _ => false

/-- The instructions that store to memory (R28). -/
def storesBytes : Instr → Bool
  | .ldBVx _ | .ldMemVx _ => true
  | _ => false

/-- The instructions that write the display (R20). -/
def writesDisplay : Instr → Bool
  | .cls | .drwVxVyN _ _ _ => true
  | _ => false

/-- The condition an instruction can raise in execute, if any (60_exceptions.md R151; R82 for SYS). -/
def mayRaise : Instr → Option ErrKind
  | .sys _ => some .unsupportedLegacyCall
  | .call _ => some .stackOverflow
  | .ret => some .stackUnderflow
  | .skpVx _ | .sknpVx _ => some .invalidKeyIndex
  | .ldBVx _ | .ldMemVx _ | .ldVxMem _ | .drwVxVyN _ _ _ => some .memoryOutOfBounds
  | _ => none

/-! ## The image of a sprite (43_display.md R131, R133) -/

/-- Whether the sprite of `n` bytes at `i`, drawn at column `x0` and row `y0`, has a 1 on display cell `(y, x)`: rows are
clipped, columns wrap, bit 7 of a byte is its leftmost column (D10, log 3). -/
def spriteImage (byteAt : Nat → Byte) (i x0 y0 n : Nat) (y : Fin 32) (x : Fin 64) : Bool :=
  decide (y0 ≤ y.val) && decide (y.val < y0 + n) && decide ((x.val + 64 - x0 % 64) % 64 < 8) &&
    (byteAt (i + (y.val - y0))).getLsbD (7 - (x.val + 64 - x0 % 64) % 64)

/-- Whatever else a running core holds, if its memory reads as that of `t`, a legal fetch at any PC reads the word of the bytes `f`, high
byte first, and the step runs it (20_memory.md R41, R50, R54): an instruction is executed, a word of no row stops with
InvalidInstruction. -/
def FetchesFrom (t : State) (f : Nat → Byte) : Prop :=
  ∀ u : State, t.SameBytes u → u.run = .running → u.schedule = [] → u.pc.toNat ≤ 0xFFE →
    (∀ j, decodeWord (f u.pc.toNat ++ f (u.pc.toNat + 1)) = .ok j → step u = exec j u) ∧
    (∀ e, decodeWord (f u.pc.toNat ++ f (u.pc.toNat + 1)) = .error e →
      ∃ v, step u = .next v ∧ u.StoppedBy v .invalidInstruction)

/-- Instructions executed one after another, each on the state the one before left. -/
def execAll : List Instr → State → Option State
  | [], s => some s
  | i :: is, s =>
    match exec i s with
    | .next t => execAll is t
    | .fault _ => none
    | .refused _ => none

end Sys2Proof.Machine
end

