-- ==== Sys2Proof/Certificates/Slice0/Obligations.lean ====
section
/-! DEFINITION. The statements for the provers, from the numbered rules of spec/. A clause that rests on one of the spec's own
decisions D<n>, on a bit pattern from general knowledge (G1) or on a choice of this model (log <n>) is named as such in its
docstring. -/

open Sys2Proof Sys2Proof.Machine

/-! ## Encoding -/

/-- Decoding the bytes of a well-formed instruction gives it back with every operand, whatever follows (30_encoding.md sections 1
to 3; the bit patterns of 26 rows are from general knowledge, log 2). -/
def Obligations.DecodeOfEncodeGivesTheInstructionBack : Prop :=
  ∀ (i : Instr) (rest : List Byte), i.wf = true → decode (encode i ++ rest) = .ok (i, rest)

/-- A word that decodes is the word of the instruction it decodes to, and that instruction is well formed: no two words share an
instruction, and no bit is dropped. -/
def Obligations.EncodeOfDecodeGivesTheWordBack : Prop :=
  ∀ (w : Word16) (i : Instr), decodeWord w = .ok i → i.wf = true ∧ encodeWord i = w

/-- The words that match no row are exactly those of the table of R66 (strict decode, decisions D6 and D7; log 9). -/
def Obligations.InvalidWordsAreExactlyTheListedOnes : Prop :=
  ∀ w : Word16, decodeWord w = .error .invalidInstruction ↔
    (f1 w = 0x0#4 ∧ immNN w = 0#8) ∨
    (f1 w = 0x5#4 ∧ f4 w ≠ 0#4) ∨
    (f1 w = 0x9#4 ∧ f4 w ≠ 0#4) ∨
    (f1 w = 0x8#4 ∧ (8 ≤ (f4 w).toNat ∧ f4 w ≠ 0xE#4)) ∨
    (f1 w = 0xE#4 ∧ immNN w ≠ 0x9E#8 ∧ immNN w ≠ 0xA1#8) ∨
    (f1 w = 0xF#4 ∧ immNN w ∉ [0x07#8, 0x0A#8, 0x15#8, 0x18#8, 0x1E#8, 0x29#8, 0x33#8, 0x55#8, 0x65#8])

/-- The legacy family is every word of the `0` family with a nonzero low byte but the two words of CLS and RET (C3, D6; log 9), and
its operand is NNN. -/
def Obligations.LegacyFamilyIsTheRestOfTheZeroFamily : Prop :=
  ∀ (w : Word16) (nnn : Addr), decodeWord w = .ok (.sys nnn) ↔
    f1 w = 0x0#4 ∧ immNN w ≠ 0#8 ∧ w ≠ 0x00E0#16 ∧ w ≠ 0x00EE#16 ∧ nnn = immNNN w

/-- Some words written out bit by bit from R61 and R65, one of each format, decode to the instruction they stand for. -/
def Obligations.WordsWrittenOutFromTheMapDecode : Prop :=
  decodeWord 0b0000000011101110#16 = .ok .ret ∧
  decodeWord 0b0010101010111100#16 = .ok (.call 0xABC#12) ∧
  decodeWord 0b0110101000101100#16 = .ok (.ldVxNn 0xA#4 0x2C#8) ∧
  decodeWord 0b1000000100100100#16 = .ok (.addVxVy 0x1#4 0x2#4) ∧
  decodeWord 0b1101000100100011#16 = .ok (.drwVxVyN 0x1#4 0x2#4 0x3#4) ∧
  decodeWord 0b1111010000110011#16 = .ok (.ldBVx 0x4#4)

/-! ## The step -/

/-- When the core is to move and the two bytes at PC decode to `i`, the step is `exec i`: on the state itself when no turn is
scheduled, else on the state with the core's turn taken off the schedule (log 11). The rest of PC's advance is `exec`'s. -/
def Obligations.StepRunsTheDecodedInstruction : Prop :=
  ∀ (s : State) (i : Instr), s.run = .running → s.pc.toNat ≤ 0xFFE → decodeWord (s.readWord s.pc.toNat) = .ok i →
    (s.schedule = [] → step s = exec i s) ∧
    (∀ rest, s.schedule = .core :: rest → step s = exec i { s with schedule := rest })

/-- A fetch is legal if and only if PC is at most 0xFFE: then the word run is the byte at PC and the byte after it, high byte first
(R41), and a word of no row stops with InvalidInstruction at PC and nothing else changed (R63, R66); from 0xFFF on MemoryOutOfBounds is
raised with ERR.addr = PC, before any decode, with no other change (R42). That a stop is precise and latched in ERR is decisions D4 and
D5 (log 7, log 8). -/
def Obligations.FetchBoundsAndByteOrder : Prop :=
  ∀ s : State, s.run = .running → s.schedule = [] →
    (s.pc.toNat ≤ 0xFFE → ∃ w : Word16,
      w.toNat = (s.readByte s.pc.toNat).toNat * 256 + (s.readByte (s.pc.toNat + 1)).toNat ∧
      (∀ i, decodeWord w = .ok i → step s = exec i s) ∧
      (∀ e, decodeWord w = .error e → ∃ t, step s = .next t ∧ s.StoppedBy t .invalidInstruction)) ∧
    (0xFFF ≤ s.pc.toNat → ∃ t, step s = .next t ∧ s.StoppedBy t .memoryOutOfBounds)

/-- With no turn scheduled, a step exists if and only if the core is Running; in Idle and in WaitKey there is none, which the model
answers by its two faults (log 12). No instruction ever stops the model. -/
def Obligations.CoreStepsExactlyWhenRunning : Prop :=
  (∀ (i : Instr) (s : State), ∃ t, exec i s = .next t) ∧
  ∀ s : State, s.schedule = [] →
    ((∃ t, step s = .next t) ↔ s.run = .running) ∧
    (s.run = .idle → step s = .fault .coreIdle) ∧ (s.run = .waitKey → step s = .fault .coreWaiting)

/-- A scheduled host event is one atomic step and takes its turn off the schedule; a scheduled turn of the core that finds it not
Running passes with no effect (the model's own interleaving, log 11). -/
def Obligations.ScheduledTurnIsOneTransition : Prop :=
  ∀ (s : State) (rest : List Turn),
    (∀ e, s.schedule = .host e :: rest → ∃ t, step s = .next t ∧
      t = (hostEvent e { s with schedule := rest }).1 ∧ t.schedule = rest) ∧
    (s.schedule = .core :: rest → s.run ≠ .running → step s = .next { s with schedule := rest })

/-! ## Register, arithmetic and logic instructions (41_alu.md) -/

/-- 6XNN and 7XNN: words, new value, and nothing else but PC; the sum wraps and no flag is written (R102, R103). -/
def Obligations.ImmediateFormsLoadOrAdd : Prop :=
  ∀ (s : State) (x : Nibble) (nn : Byte),
    (decodeWord (0x6#4 ++ x ++ nn) = .ok (.ldVxNn x nn) ∧
      ∃ t, exec (.ldVxNn x nn) s = .next t ∧ t.reg x = nn ∧ (∀ z, z ≠ x → t.reg z = s.reg z) ∧ s.OnlyRegs t) ∧
    (decodeWord (0x7#4 ++ x ++ nn) = .ok (.addVxNn x nn) ∧
      ∃ t, exec (.addVxNn x nn) s = .next t ∧ (t.reg x).toNat = ((s.reg x).toNat + nn.toNat) % 256 ∧
        (∀ z, z ≠ x → t.reg z = s.reg z) ∧ s.OnlyRegs t)

/-- 8XY0 to 8XY3: the move and the three logic results, bit by bit; VF is written only as the destination (41_alu.md section 3). -/
def Obligations.MoveAndLogicWriteOnlyTheDestination : Prop :=
  ∀ (s : State) (x y : Nibble),
    (∃ t, exec (.ldVxVy x y) s = .next t ∧ t.reg x = s.reg y ∧ (∀ z, z ≠ x → t.reg z = s.reg z) ∧ s.OnlyRegs t) ∧
    (∃ t, exec (.orVxVy x y) s = .next t ∧
      (∀ n < 8, (t.reg x).getLsbD n = ((s.reg x).getLsbD n || (s.reg y).getLsbD n)) ∧
      (∀ z, z ≠ x → t.reg z = s.reg z) ∧ s.OnlyRegs t) ∧
    (∃ t, exec (.andVxVy x y) s = .next t ∧
      (∀ n < 8, (t.reg x).getLsbD n = ((s.reg x).getLsbD n && (s.reg y).getLsbD n)) ∧
      (∀ z, z ≠ x → t.reg z = s.reg z) ∧ s.OnlyRegs t) ∧
    (∃ t, exec (.xorVxVy x y) s = .next t ∧
      (∀ n < 8, (t.reg x).getLsbD n = ((s.reg x).getLsbD n != (s.reg y).getLsbD n)) ∧
      (∀ z, z ≠ x → t.reg z = s.reg z) ∧ s.OnlyRegs t)

/-- 8XY4, 8XY5, 8XY7: result modulo 256 in VX, carry or not-borrow in VF, from the operands before the instruction. With X = 0xF the
flag is what VF holds (decision D3, log 6). -/
def Obligations.AddAndSubtractWriteResultThenFlag : Prop :=
  ∀ (s : State) (x y : Nibble),
    (∃ t, exec (.addVxVy x y) s = .next t ∧
      (x ≠ 0xF#4 → (t.reg x).toNat = ((s.reg x).toNat + (s.reg y).toNat) % 256) ∧
      (t.reg 0xF#4).toNat = (if (s.reg x).toNat + (s.reg y).toNat > 255 then 1 else 0) ∧
      (∀ z, z ≠ x → z ≠ 0xF#4 → t.reg z = s.reg z) ∧ s.OnlyRegs t) ∧
    (∃ t, exec (.subVxVy x y) s = .next t ∧
      (x ≠ 0xF#4 → (t.reg x).toNat = ((s.reg x).toNat + 256 - (s.reg y).toNat) % 256) ∧
      (t.reg 0xF#4).toNat = (if (s.reg x).toNat < (s.reg y).toNat then 0 else 1) ∧
      (∀ z, z ≠ x → z ≠ 0xF#4 → t.reg z = s.reg z) ∧ s.OnlyRegs t) ∧
    (∃ t, exec (.subnVxVy x y) s = .next t ∧
      (x ≠ 0xF#4 → (t.reg x).toNat = ((s.reg y).toNat + 256 - (s.reg x).toNat) % 256) ∧
      (t.reg 0xF#4).toNat = (if (s.reg y).toNat < (s.reg x).toNat then 0 else 1) ∧
      (∀ z, z ≠ x → z ≠ 0xF#4 → t.reg z = s.reg z) ∧ s.OnlyRegs t)

/-- 8XY6 and 8XYE: VX halved or doubled modulo 256, the bit shifted out in VF as 0 or 1; VY is neither read nor written. With X = 0xF
the flag is what VF holds (decision D3, log 6). -/
def Obligations.ShiftsMoveOneBitIntoTheFlag : Prop :=
  ∀ (s : State) (x y : Nibble),
    (∃ t, exec (.shrVx x y) s = .next t ∧ (x ≠ 0xF#4 → (t.reg x).toNat = (s.reg x).toNat / 2) ∧
      (t.reg 0xF#4).toNat = (s.reg x).toNat % 2 ∧ (∀ z, z ≠ x → z ≠ 0xF#4 → t.reg z = s.reg z) ∧ s.OnlyRegs t) ∧
    (∃ t, exec (.shlVx x y) s = .next t ∧ (x ≠ 0xF#4 → (t.reg x).toNat = 2 * (s.reg x).toNat % 256) ∧
      (t.reg 0xF#4).toNat = (s.reg x).toNat / 128 ∧ (∀ z, z ≠ x → z ≠ 0xF#4 → t.reg z = s.reg z) ∧ s.OnlyRegs t)

/-- CXNN: VX is the free byte of this execution under the mask, and the next execution has another one; no set bit lies outside the
mask (decision D20, log 10: the byte is `Config.draw8` of the counter, of which nothing is known). -/
def Obligations.RandomIsAFreeByteUnderTheMask : Prop :=
  ∀ (s : State) (x : Nibble) (nn : Byte), ∃ t, exec (.rndVxNn x nn) s = .next t ∧
    (∀ n < 8, (t.reg x).getLsbD n = (nn.getLsbD n && (Config.draw8 s.draws).getLsbD n)) ∧
    (t.reg x).toNat ≤ nn.toNat ∧ (∀ z, z ≠ x → t.reg z = s.reg z) ∧
    t = { s with v := t.v, pc := s.pc + 2#13, draws := s.draws + 1 } ∧ s.SameBytes t

/-! ## Control flow (40_flow.md) -/

/-- 3XNN, 4XNN, 5XY0, 9XY0: PC ends at pc + 4 when the skip is taken and at pc + 2 when it is not; nothing else changes. -/
def Obligations.SkipsMovePcByFourOrTwo : Prop :=
  ∀ (s : State) (x y : Nibble) (nn : Byte),
    exec (.seVxNn x nn) s = .next { s with pc := if s.reg x = nn then s.pc + 4#13 else s.pc + 2#13 } ∧
    exec (.sneVxNn x nn) s = .next { s with pc := if s.reg x = nn then s.pc + 2#13 else s.pc + 4#13 } ∧
    exec (.seVxVy x y) s = .next { s with pc := if s.reg x = s.reg y then s.pc + 4#13 else s.pc + 2#13 } ∧
    exec (.sneVxVy x y) s = .next { s with pc := if s.reg x = s.reg y then s.pc + 2#13 else s.pc + 4#13 }

/-- 1NNN and BNNN: PC becomes NNN, or NNN + V0 with no mask (decision D1, log 4); nothing else changes and nothing is checked. -/
def Obligations.JumpsSetPcUnmasked : Prop :=
  ∀ (s : State) (nnn : Addr),
    (∃ t, exec (.jp nnn) s = .next t ∧ t.pc.toNat = nnn.toNat ∧ t = { s with pc := t.pc } ∧ s.SameBytes t) ∧
    (∃ t, exec (.jpV0Nnn nnn) s = .next t ∧ t.pc.toNat = nnn.toNat + (s.reg 0x0#4).toNat ∧ t = { s with pc := t.pc } ∧
      s.SameBytes t)

/-- 2NNN: below 16 entries the address of the next word goes into slot SP, SP grows by one and PC becomes NNN, every other slot and
everything else as before; with 16 entries StackOverflow, nothing else changed (R84). -/
def Obligations.CallPushesTheNextAddress : Prop :=
  ∀ (s : State) (nnn : Addr),
    decodeWord (0x2#4 ++ nnn) = .ok (.call nnn) ∧
    (∀ h : s.sp.val < 16, ∃ t, exec (.call nnn) s = .next t ∧
      t.stk[s.sp.val] = s.pc + 2#13 ∧ (∀ n : Fin 16, n.val ≠ s.sp.val → t.stk[n] = s.stk[n]) ∧
      t.sp.val = s.sp.val + 1 ∧ t.pc.toNat = nnn.toNat ∧
      t = { s with stk := t.stk, sp := t.sp, pc := t.pc } ∧ s.SameBytes t) ∧
    (s.sp.val = 16 → ∃ t, exec (.call nnn) s = .next t ∧ s.StoppedBy t .stackOverflow)

/-- 00EE: with an entry, PC becomes the newest one and SP falls by one, the slots and everything else as before; with none,
StackUnderflow, nothing else changed (R81). -/
def Obligations.ReturnPopsTheNewestAddress : Prop :=
  ∀ s : State, decodeWord 0x00EE#16 = .ok .ret ∧
    (∀ (n : Fin 16), s.sp.val = n.val + 1 → ∃ t, exec .ret s = .next t ∧
      t.pc = s.stk[n] ∧ t.sp.val = n.val ∧ t = { s with sp := t.sp, pc := t.pc } ∧ s.SameBytes t) ∧
    (s.sp.val = 0 → ∃ t, exec .ret s = .next t ∧ s.StoppedBy t .stackUnderflow)

/-- A call and then a return: whatever the subroutine did in between, further calls and returns included, if it left SP and the entry of
this call as they were, the return goes to the word after the call, the stack is as deep as before, and no slot is written (the source's
property T11). -/
def Obligations.ReturnUndoesCall : Prop :=
  ∀ (s t u : State) (nnn : Addr) (h : s.sp.val < 16), exec (.call nnn) s = .next t →
    u.stk[s.sp.val] = t.stk[s.sp.val] → u.sp = t.sp →
    ∃ w, exec .ret u = .next w ∧ w.pc = s.pc + 2#13 ∧ w.sp = s.sp ∧ w.stk = u.stk

/-- From an empty stack sixteen nested calls succeed and the seventeenth faults with the stack still full, whatever their targets. -/
def Obligations.SixteenCallsNestAndTheSeventeenthFaults : Prop :=
  ∀ (targets : List Addr) (s : State), s.sp.val = 0 →
    (targets.length ≤ 16 → ∃ t, execAll (targets.map .call) s = some t ∧ t.sp.val = targets.length ∧
      t.err = s.err ∧ t.run = s.run) ∧
    (targets.length = 17 → ∃ t, execAll (targets.map .call) s = some t ∧ t.sp.val = 16 ∧
      t.err.kind = .stackOverflow ∧ t.run = .idle)

/-- 0NNN: the legacy call's one effect is the fatal condition UnsupportedLegacyCall at its own PC, for every operand (40_flow.md section 2;
which words these are rests on D6, log 9). -/
def Obligations.LegacyCallStopsTheCore : Prop :=
  ∀ (s : State) (nnn : Addr), (Instr.sys nnn).wf = true →
    (∃ t, exec (.sys nnn) s = .next t ∧ s.StoppedBy t .unsupportedLegacyCall) ∧
    (s.run = .running → s.schedule = [] → s.pc.toNat ≤ 0xFFE → s.readWord s.pc.toNat = wordNNN 0x0#4 nnn →
      ∃ t, step s = .next t ∧ s.StoppedBy t .unsupportedLegacyCall)

/-! ## Address register and memory (42_index_memory.md) -/

/-- ANNN, FX1E, FX29: the new I (the sum modulo 4096; five times the whole register, D27), PC to the next word, nothing else; VF is
not written. -/
def Obligations.IndexInstructionsWriteOnlyI : Prop :=
  ∀ (s : State) (x : Nibble) (nnn : Addr),
    (∃ t, exec (.ldINnn nnn) s = .next t ∧ t.i = nnn ∧ t = { s with i := t.i, pc := s.pc + 2#13 } ∧ s.SameBytes t) ∧
    (∃ t, exec (.addIVx x) s = .next t ∧ t.i.toNat = (s.i.toNat + (s.reg x).toNat) % 4096 ∧
      t = { s with i := t.i, pc := s.pc + 2#13 } ∧ s.SameBytes t) ∧
    (∃ t, exec (.ldFVx x) s = .next t ∧ t.i.toNat = 5 * (s.reg x).toNat ∧
      t = { s with i := t.i, pc := s.pc + 2#13 } ∧ s.SameBytes t)

/-- FX33: up to I = 0xFFD the three decimal digits of VX stand at I, I+1, I+2 and every other byte is as before, I and the registers
too; from 0xFFE on MemoryOutOfBounds with nothing written (precise, decision D4, log 7). -/
def Obligations.BcdStoresThreeDigits : Prop :=
  ∀ (s : State) (x : Nibble), s.mem.wf s.font = true →
    (s.i.toNat ≤ 0xFFD → ∃ t, exec (.ldBVx x) s = .next t ∧
      (t.readByte s.i.toNat).toNat * 100 + (t.readByte (s.i.toNat + 1)).toNat * 10 +
        (t.readByte (s.i.toNat + 2)).toNat = (s.reg x).toNat ∧
      (t.readByte s.i.toNat).toNat ≤ 2 ∧ (t.readByte (s.i.toNat + 1)).toNat ≤ 9 ∧
      (t.readByte (s.i.toNat + 2)).toNat ≤ 9 ∧
      (∀ a, ¬ (s.i.toNat ≤ a ∧ a < s.i.toNat + 3) → t.readByte a = s.readByte a) ∧
      t = { s with mem := t.mem, pc := s.pc + 2#13 }) ∧
    (0xFFE ≤ s.i.toNat → ∃ t, exec (.ldBVx x) s = .next t ∧ s.StoppedBy t .memoryOutOfBounds)

/-- FX55: V0 to VX stand at I to I+X, every other byte is as before, I and the registers too; past 0xFFF MemoryOutOfBounds with nothing
written (precise, decision D4, log 7). -/
def Obligations.DumpStoresTheRegisters : Prop :=
  ∀ (s : State) (x : Nibble), s.mem.wf s.font = true →
    (s.i.toNat + x.toNat ≤ 0xFFF → ∃ t, exec (.ldMemVx x) s = .next t ∧
      (∀ z : Nibble, z.toNat ≤ x.toNat → t.readByte (s.i.toNat + z.toNat) = s.reg z) ∧
      (∀ a, ¬ (s.i.toNat ≤ a ∧ a ≤ s.i.toNat + x.toNat) → t.readByte a = s.readByte a) ∧
      t = { s with mem := t.mem, pc := s.pc + 2#13 }) ∧
    (0xFFF < s.i.toNat + x.toNat → ∃ t, exec (.ldMemVx x) s = .next t ∧ s.StoppedBy t .memoryOutOfBounds)

/-- FX65: V0 to VX hold the bytes at I to I+X, every other register, I and memory as before; past 0xFFF MemoryOutOfBounds with nothing
written (precise, decision D4, log 7). -/
def Obligations.LoadFillsTheRegisters : Prop :=
  ∀ (s : State) (x : Nibble),
    (s.i.toNat + x.toNat ≤ 0xFFF → ∃ t, exec (.ldVxMem x) s = .next t ∧
      (∀ z : Nibble, z.toNat ≤ x.toNat → t.reg z = s.readByte (s.i.toNat + z.toNat)) ∧
      (∀ z : Nibble, x.toNat < z.toNat → t.reg z = s.reg z) ∧ s.OnlyRegs t) ∧
    (0xFFF < s.i.toNat + x.toNat → ∃ t, exec (.ldVxMem x) s = .next t ∧ s.StoppedBy t .memoryOutOfBounds)

/-- What FX55 stored FX65 loads back, into whatever registers: V0 to VX as they were. -/
def Obligations.LoadAfterDumpRestoresTheRegisters : Prop :=
  ∀ (s t u : State) (x : Nibble), s.mem.wf s.font = true → s.i.toNat + x.toNat ≤ 0xFFF → exec (.ldMemVx x) s = .next t →
    t.SameBytes u → u.i = s.i →
    ∃ w, exec (.ldVxMem x) u = .next w ∧ ∀ z : Nibble, z.toNat ≤ x.toNat → w.reg z = s.reg z

/-- A store by FX33 or FX55 at any I in bounds, over the following word or over itself too, is what every later fetch reads until memory
changes again, the very next fetch included: the word fetched at an address is made of the stored bytes where the store reached and of
the old ones elsewhere (20_memory.md section 7). -/
def Obligations.StoreIsSeenByTheNextFetch : Prop :=
  ∀ (s : State) (x : Nibble), s.run = .running → s.schedule = [] → s.mem.wf s.font = true → s.pc.toNat ≤ 0xFFE →
    (s.readWord s.pc.toNat = encodeWord (.ldBVx x) → s.i.toNat ≤ 0xFFD →
      ∃ t, step s = .next t ∧ t.pc = s.pc + 2#13 ∧ t.run = .running ∧ t.schedule = [] ∧
        FetchesFrom t fun a =>
          if a = s.i.toNat then BitVec.ofNat 8 ((s.reg x).toNat / 100)
          else if a = s.i.toNat + 1 then BitVec.ofNat 8 ((s.reg x).toNat / 10 % 10)
          else if a = s.i.toNat + 2 then BitVec.ofNat 8 ((s.reg x).toNat % 10)
          else s.readByte a) ∧
    (s.readWord s.pc.toNat = encodeWord (.ldMemVx x) → s.i.toNat + x.toNat ≤ 0xFFF →
      ∃ t, step s = .next t ∧ t.pc = s.pc + 2#13 ∧ t.run = .running ∧ t.schedule = [] ∧
        FetchesFrom t fun a =>
          if s.i.toNat ≤ a ∧ a ≤ s.i.toNat + x.toNat then s.reg (BitVec.ofNat 4 (a - s.i.toNat)) else s.readByte a)

/-- Canonical memories that read alike everywhere are equal data. -/
def Obligations.CanonicalMemoriesWithEqualReadsAreEqual : Prop :=
  ∀ (f : Font) (m n : Memory), m.wf f = true → n.wf f = true → (∀ a, m.read f a = n.read f a) → m = n

/-! ## Display (43_display.md) -/

/-- 00E0: every cell is 0, PC to the next word, nothing else; VF is not written. -/
def Obligations.ClearEmptiesTheDisplay : Prop :=
  ∀ s : State, ∃ t, exec .cls s = .next t ∧ (∀ y x, t.display.cell y x = false) ∧
    t = { s with display := t.display, pc := s.pc + 2#13 } ∧ s.SameBytes t

/-- DXYN: when the sprite's bytes are in memory, each cell is XORed with the sprite's clipped, column-wrapped image, VF is 1 if and only
if some cell was 1 under a 1 of the image, and nothing else changes. A sprite of no rows is always in memory (D25). The bit order
within a sprite byte is general knowledge (D10, log 3). -/
def Obligations.DrawXorsTheSpriteImage : Prop :=
  ∀ (s : State) (x y n : Nibble), s.i.toNat + n.toNat ≤ 4096 → ∃ t, exec (.drwVxVyN x y n) s = .next t ∧
    (∀ r c, t.display.cell r c = (s.display.cell r c !=
      spriteImage s.readByte s.i.toNat (s.reg x).toNat (s.reg y).toNat n.toNat r c)) ∧
    (t.reg 0xF#4 = 0#8 ∨ t.reg 0xF#4 = 1#8) ∧
    (t.reg 0xF#4 = 1#8 ↔ ∃ r c, s.display.cell r c = true ∧
      spriteImage s.readByte s.i.toNat (s.reg x).toNat (s.reg y).toNat n.toNat r c = true) ∧
    (∀ z, z ≠ 0xF#4 → t.reg z = s.reg z) ∧
    t = { s with display := t.display, v := t.v, pc := s.pc + 2#13 } ∧ s.SameBytes t

/-- DXYN with a sprite that reaches past 0xFFF stops with MemoryOutOfBounds, clipped rows counted (D31), nothing written (precise,
decision D4, log 7). -/
def Obligations.DrawPastMemoryStopsTheCore : Prop :=
  ∀ (s : State) (x y n : Nibble), 4096 < s.i.toNat + n.toNat →
    ∃ t, exec (.drwVxVyN x y n) s = .next t ∧ s.StoppedBy t .memoryOutOfBounds

/-- The same sprite drawn twice at the same place restores the display, and the second draw collides exactly when the first had set some
cell: a cell that was 0 under a 1 of the image, which on a display that was clear there is any 1 of the image. (R132's corner case
"sets VF = 1 if the sprite had any 1 bit on a drawn row" holds of that case only; log 28.) -/
def Obligations.DrawingTwiceRestoresTheDisplay : Prop :=
  ∀ (s t u : State) (x y n : Nibble), s.i.toNat + n.toNat ≤ 4096 → exec (.drwVxVyN x y n) s = .next t →
    u.display = t.display → s.SameBytes u → u.i = s.i → u.reg x = s.reg x → u.reg y = s.reg y →
    ∃ w, exec (.drwVxVyN x y n) u = .next w ∧ w.display = s.display ∧
      (w.reg 0xF#4 = 1#8 ↔ ∃ r c, s.display.cell r c = false ∧
        spriteImage s.readByte s.i.toNat (s.reg x).toNat (s.reg y).toNat n.toNat r c = true)

/-! ## Keys and timers (44_input_timers.md) -/

/-- EX9E and EXA1: with VX at most 15 the skip depends on that key's state and only PC changes; above 15 InvalidKeyIndex, VX not masked
(D26). -/
def Obligations.KeySkipsReadTheKeyState : Prop :=
  ∀ (s : State) (x : Nibble),
    (∀ k : Fin 16, (s.reg x).toNat = k.val →
      exec (.skpVx x) s = .next { s with pc := if s.keys[k] = true then s.pc + 4#13 else s.pc + 2#13 } ∧
      exec (.sknpVx x) s = .next { s with pc := if s.keys[k] = true then s.pc + 2#13 else s.pc + 4#13 }) ∧
    (15 < (s.reg x).toNat →
      (∃ t, exec (.skpVx x) s = .next t ∧ s.StoppedBy t .invalidKeyIndex) ∧
      (∃ t, exec (.sknpVx x) s = .next t ∧ s.StoppedBy t .invalidKeyIndex))

/-- FX07, FX15, FX18: VX becomes DT, DT becomes VX, ST becomes VX; PC to the next word, nothing else. -/
def Obligations.TimerInstructionsMoveOneByte : Prop :=
  ∀ (s : State) (x : Nibble),
    (∃ t, exec (.ldVxDt x) s = .next t ∧ t.reg x = s.dt ∧ (∀ z, z ≠ x → t.reg z = s.reg z) ∧ s.OnlyRegs t) ∧
    exec (.ldDtVx x) s = .next { s with dt := s.reg x, pc := s.pc + 2#13 } ∧
    exec (.ldStVx x) s = .next { s with st := s.reg x, pc := s.pc + 2#13 }

/-- FX0A in its two halves: it suspends with PC and every register as they were; a press then puts the key's index in VX, moves PC to the
next word and lets the core run; `halt` abandons it without effect; a release or a tick does not end it (decisions D16 and D17, log 18 and
log 19). -/
def Obligations.KeyWaitEndsByPressOrHalt : Prop :=
  ∀ (s : State) (x k : Nibble), ∃ t, exec (.ldVxK x) s = .next t ∧ t = { s with waitX := x, run := .waitKey } ∧ s.SameBytes t ∧
    (∃ u, hostEvent (.press k) t = (u, .done) ∧ (u.reg x).toNat = k.toNat ∧ (∀ z, z ≠ x → u.reg z = s.reg z) ∧
      u.key k = true ∧ (∀ j, j ≠ k → u.key j = s.key j) ∧
      u = { t with v := u.v, keys := u.keys, lastKey := some k, pc := s.pc + 2#13, run := .running }) ∧
    hostEvent .halt t = ({ t with run := .idle }, .done) ∧
    (hostEvent (.release k) t).1.run = .waitKey ∧ (hostEvent (.release k) t).1.pc = s.pc ∧
    (hostEvent .tick t).1.run = .waitKey ∧ (hostEvent .tick t).1.pc = s.pc

/-! ## Host events (60_exceptions.md, 70_reset_and_hazards.md) -/

/-- `tick`: each timer falls by one and stays at 0, in every run state (D12, log 16); nothing else changes. -/
def Obligations.TickCountsBothTimersDown : Prop :=
  ∀ s : State, ∃ t, hostEvent .tick s = (t, .done) ∧ t.dt.toNat = s.dt.toNat - 1 ∧ t.st.toNat = s.st.toNat - 1 ∧
    t = { s with dt := t.dt, st := t.st }

/-- `release(k)`: that key is released and nothing else changes, in every run state; releasing a key that is not pressed changes nothing
(R163). -/
def Obligations.ReleaseClearsOneKeyOnly : Prop :=
  ∀ (s : State) (k : Nibble), ∃ t, hostEvent (.release k) s = (t, .done) ∧ t.key k = false ∧
    (∀ j, j ≠ k → t.key j = s.key j) ∧ t = { s with keys := t.keys } ∧ (s.key k = false → t = s)

/-- `press(k)` outside a key-wait: that key is pressed and latched as the last one, and nothing else changes, whether or not it was
pressed before (D16, log 18). -/
def Obligations.PressOutsideAWaitOnlyLatches : Prop :=
  ∀ (s : State) (k : Nibble), s.run ≠ .waitKey → ∃ t, hostEvent (.press k) s = (t, .done) ∧ t.key k = true ∧
    (∀ j, j ≠ k → t.key j = s.key j) ∧ t = { s with keys := t.keys, lastKey := some k }

/-- `run`: from Idle with a program loaded it starts the core at the current PC and clears ERR, nothing else; otherwise it is refused and
changes nothing (R168). -/
def Obligations.RunStartsOnlyALoadedIdleCore : Prop :=
  ∀ s : State,
    (s.run = .idle → s.loaded = true → hostEvent .run s = ({ s with run := .running, err := ⟨.none, 0#13⟩ }, .done)) ∧
    (s.run ≠ .idle ∨ s.loaded = false → hostEvent .run s = (s, .refused))

/-- `halt`: RUN becomes Idle and nothing else changes; in Idle it is a no-op; a later `run` of a loaded core goes on at the same PC and with
everything else but ERR as it was (R169). -/
def Obligations.HaltStopsAndRunContinues : Prop :=
  ∀ s : State, hostEvent .halt s = ({ s with run := .idle }, .done) ∧ (s.run = .idle → (hostEvent .halt s).1 = s) ∧
    (s.loaded = true → hostEvent .run (hostEvent .halt s).1 = ({ s with run := .running, err := ⟨.none, 0#13⟩ }, .done))

/-- `display`, `is_program_loaded`, `is_running`: the answer, and no change, in every run state (R166, R167). -/
def Obligations.QueriesAnswerAndChangeNothing : Prop :=
  ∀ s : State, hostEvent .display s = (s, .grid s.display) ∧ hostEvent .isProgramLoaded s = (s, .flag s.loaded) ∧
    ∃ b, hostEvent .isRunning s = (s, .flag b) ∧ (b = true ↔ s.run = .running ∨ s.run = .waitKey)

/-- `reset` from Idle: every element of the state has its reset value; the keys and LASTKEY are unchanged (D14, log 14), PC is 0x000 (D21,
log 21), memory holds FONT and zeros, whatever FONT is (log 33), and the
inputs that State holds, FONT, the draws and the schedule, are unchanged. -/
def Obligations.ResetSetsEveryElement : Prop :=
  ∀ s : State, s.run = .idle → ∃ t, hostEvent .reset s = (t, .done) ∧ (∀ z, t.reg z = 0#8) ∧ t.i = 0#12 ∧ t.pc = 0#13 ∧
    (∀ n : Fin 16, t.stk[n] = 0#13) ∧ t.sp.val = 0 ∧
    (∀ (a : Nat) (h : a < 80), t.readByte a = s.font[a]) ∧ (∀ a, 80 ≤ a → t.readByte a = 0#8) ∧
    (∀ y x, t.display.cell y x = false) ∧
    t.dt = 0#8 ∧ t.st = 0#8 ∧ t.loaded = false ∧ t.run = .idle ∧ t.waitX = 0#4 ∧ t.err = ⟨.none, 0#13⟩ ∧
    t.keys = s.keys ∧ t.lastKey = s.lastKey ∧ t.font = s.font ∧
    t.draws = s.draws ∧ t.schedule = s.schedule

/-- `load(code)` from Idle is `reset` and then, for at most 3584 bytes, the program at 0x200, PC at 0x200 and LOADED, with success; for more,
failure and nothing beyond the reset. A second load fully replaces a first one: no residue is left (R191). -/
def Obligations.LoadResetsThenInstalls : Prop :=
  ∀ (s : State) (code : List Byte), s.run = .idle →
    (code.length ≤ 3584 → ∃ t, hostEvent (.load code) s = (t, .done) ∧
      (∀ a, t.readByte a = if 0x200 ≤ a ∧ a < 0x200 + code.length then code.getD (a - 0x200) 0#8
        else (hostEvent .reset s).1.readByte a) ∧
      t = { (hostEvent .reset s).1 with mem := t.mem, pc := 0x200#13, loaded := true } ∧
      t.sp.val = 0 ∧ t.dt = 0#8 ∧ t.st = 0#8) ∧
    (3584 < code.length → hostEvent (.load code) s = ((hostEvent .reset s).1, .loadTooLarge)) ∧
    ∀ first, hostEvent (.load code) (hostEvent (.load first) s).1 = hostEvent (.load code) s

/-- A `load` that is too large fails and leaves the state as `reset` leaves it: not loaded, PC 0x000, memory only the font, ERR clear,
nothing of the program copied (R194). -/
def Obligations.TooLargeLoadLeavesTheResetState : Prop :=
  ∀ (s : State) (code : List Byte), s.run = .idle → 3584 < code.length →
    ∃ t, hostEvent (.load code) s = (t, .loadTooLarge) ∧ t = (hostEvent .reset s).1 ∧ t.loaded = false ∧ t.pc = 0#13 ∧
      (∀ (a : Nat) (h : a < 80), t.readByte a = s.font[a]) ∧ (∀ a, 80 ≤ a → t.readByte a = 0#8) ∧ t.err = ⟨.none, 0#13⟩

/-- Events outside their precondition are refused and change nothing: `reset`, `load` and `run` while the core is not Idle, `run` with nothing
loaded (D13, log 17). -/
def Obligations.RefusedEventsChangeNothing : Prop :=
  ∀ (s : State) (code : List Byte),
    (s.run ≠ .idle → hostEvent .reset s = (s, .refused) ∧ hostEvent (.load code) s = (s, .refused) ∧
      hostEvent .run s = (s, .refused)) ∧
    (s.loaded = false → hostEvent .run s = (s, .refused))

/-- From power-on, whatever else the machine holds, `run` is refused, `reset` gives the reset state (D14, log 14 and log 26) from which
`run` is still refused, and a `load` alone is enough: after it `run` starts the core at 0x200 (R35, R193). -/
def Obligations.PowerOnRunsOnlyAfterALoad : Prop :=
  ∀ s : State, s.IsPowerOn → hostEvent .run s = (s, .refused) ∧
    hostEvent .reset s = ({ State.reset with font := s.font, draws := s.draws, schedule := s.schedule }, .done) ∧
    (hostEvent .run (hostEvent .reset s).1).2 = .refused ∧
    ∀ code : List Byte, code.length ≤ 3584 → ∃ t, hostEvent .run (hostEvent (.load code) s).1 = (t, .done) ∧
      t = { (hostEvent (.load code) s).1 with run := .running } ∧ t.pc = 0x200#13 ∧ t.err = ⟨.none, 0#13⟩

/-! ## The whole machine -/

/-- FONT is an input (R30): no step of core or host changes it, and `reset` and `load` install it, whatever it is, at 0x000 to 0x04F
(20_memory.md sections 2 and 5; that State holds the parameter is the model's choice, log 33). -/
def Obligations.FontIsAnInputThatNoStepChanges : Prop :=
  (∀ s t : State, step s = .next t → t.font = s.font) ∧
  ∀ (s : State) (code : List Byte) (a : Nat) (h : a < 80), s.run = .idle →
    (hostEvent .reset s).1.readByte a = s.font[a] ∧ (hostEvent (.load code) s).1.readByte a = s.font[a]

/-- What a next state of an instruction may differ in, element by element (the core's columns of 10_state.md section 10): registers only by
the instructions that name them as destination or write VF as a flag, I by three, the stack by two, memory by two, the display by two,
DT and ST by one each, WAITX by FX0A; K, LASTKEY, LOADED, the schedule and FONT by none; PC by none that stops and not by FX0A; RUN only by
FX0A, to WaitKey, or by a fatal condition the instruction can raise, to Idle; ERR only by such a condition (D4, D5: log 7, log 8). -/
def Obligations.EachElementIsWrittenOnlyByItsInstructions : Prop :=
  ∀ (i : Instr) (s t : State), exec i s = .next t →
    (∀ z, writesReg i z = false → t.reg z = s.reg z) ∧
    (writesIndex i = false → t.i = s.i) ∧
    (usesStack i = false → t.stk = s.stk ∧ t.sp = s.sp) ∧
    (storesBytes i = false → t.mem = s.mem ∧ s.SameBytes t) ∧
    (writesDisplay i = false → t.display = s.display) ∧
    ((∀ x, i ≠ .ldDtVx x) → t.dt = s.dt) ∧ ((∀ x, i ≠ .ldStVx x) → t.st = s.st) ∧
    ((∀ x, i ≠ .ldVxK x) → t.waitX = s.waitX) ∧ ((∀ x nn, i ≠ .rndVxNn x nn) → t.draws = s.draws) ∧
    t.keys = s.keys ∧ t.lastKey = s.lastKey ∧ t.loaded = s.loaded ∧ t.schedule = s.schedule ∧ t.font = s.font ∧
    (∀ x, i = .ldVxK x → t.pc = s.pc ∧ t.run = .waitKey ∧ t.err = s.err) ∧
    ((∀ x, i ≠ .ldVxK x) → (t.run = s.run ∧ t.err = s.err) ∨
      ∃ k, mayRaise i = some k ∧ t.err = ⟨k, s.pc⟩ ∧ t.run = .idle ∧ t.pc = s.pc)

/-- An instruction reads no register but those it names (and V0 for BNNN, V0 to VX for FX55): changing any other one beforehand changes
nothing afterwards but that register. In particular VF is never read implicitly. -/
def Obligations.InstructionsReadOnlyTheRegistersTheyName : Prop :=
  ∀ (i : Instr) (s t : State) (z : Nibble) (b : Byte), readsReg i z = false → exec i s = .next t →
    ∃ t', exec i (s.setReg z b) = .next t' ∧ t'.setReg z 0#8 = t.setReg z 0#8

/-- No instruction reads ST or LASTKEY: changing them beforehand changes nothing afterwards but themselves. -/
def Obligations.SoundTimerAndLastKeyAreNeverRead : Prop :=
  ∀ (i : Instr) (s t : State) (b : Byte) (l : Option Nibble), exec i s = .next t →
    ∃ t', exec i { s with st := b, lastKey := l } = .next t' ∧
      { t' with st := t.st, lastKey := t.lastKey } = t ∧ t'.lastKey = l ∧ ((∀ x, i ≠ .ldStVx x) → t'.st = b)

/-- Fatal conditions are precise, and each instruction can raise only its own: a next state either has ERR as before, and RUN too unless
the instruction is FX0A, or is the state before with nothing changed but ERR = (condition, PC) and RUN = Idle (decisions D4 and D5, log 7 and
log 8). -/
def Obligations.FatalConditionsArePreciseAndTheInstructionsOwn : Prop :=
  ∀ (i : Instr) (s t : State), exec i s = .next t →
    (t.err = s.err ∧ (t.run = s.run ∨ ∃ x, i = .ldVxK x)) ∨
    (∃ k, mayRaise i = some k ∧ s.StoppedBy t k)

/-- VF changes only where it is the destination or the flag, and a flag writer that completes leaves 0 or 1 in it (with X = 0xF too:
decision D3, log 6). -/
def Obligations.FlagsAreZeroOrOneAndWrittenBySix : Prop :=
  ∀ (i : Instr) (s t : State), exec i s = .next t →
    (writesReg i 0xF#4 = false → t.reg 0xF#4 = s.reg 0xF#4) ∧
    (writesFlag i = true → ¬ s.StoppedBy t .memoryOutOfBounds → t.reg 0xF#4 = 0#8 ∨ t.reg 0xF#4 = 1#8)

/-- RUN changes only by the five transitions of 10_state.md section 8: `run` from Idle, `halt` or a fatal condition from Running, FX0A, and `press`
or `halt` from WaitKey. -/
def Obligations.RunStateChangesOnlyByTheListedTransitions : Prop :=
  ∀ s t : State, step s = .next t → t.run ≠ s.run →
    (s.run = .idle ∧ t.run = .running ∧ s.loaded = true ∧ ∃ rest, s.schedule = .host .run :: rest) ∨
    (s.run = .running ∧ t.run = .idle ∧
      ((∃ rest, s.schedule = .host .halt :: rest) ∨ (t.err.kind ≠ .none ∧ t.err.addr = s.pc ∧ t.pc = s.pc))) ∨
    (s.run = .running ∧ t.run = .waitKey ∧
      ∃ x, decodeWord (s.readWord s.pc.toNat) = .ok (.ldVxK x) ∧ t.waitX = x ∧ t.pc = s.pc) ∨
    (s.run = .waitKey ∧ t.run = .running ∧ ∃ k rest, s.schedule = .host (.press k) :: rest) ∨
    (s.run = .waitKey ∧ t.run = .idle ∧ ∃ rest, s.schedule = .host .halt :: rest)

/-- A faulted state is terminal for the run: the core has no step in Idle, and a latched condition is cleared only by `reset`, `load` or
`run`, never by a step of the core (R153). -/
def Obligations.ErrIsClearedOnlyByResetLoadOrRun : Prop :=
  (∀ s : State, s.run = .idle → s.schedule = [] → ¬ ∃ t, step s = .next t) ∧
  ∀ s t : State, step s = .next t → s.err.kind ≠ .none → t.err.kind = .none →
    ∃ e rest, s.schedule = .host e :: rest ∧ (e = .reset ∨ e = .run ∨ ∃ code, e = .load code)

/-- After a fatal condition `run` executes the same instruction again and raises the same condition again: the machine is back in the state
in which it had stopped. -/
def Obligations.RunAfterAFaultFaultsAgain : Prop :=
  ∀ s t : State, s.Inv → s.run = .running → s.schedule = [] → step s = .next t → t.err.kind ≠ .none →
    ∃ u, hostEvent .run t = (u, .done) ∧ step u = .next t

/-- A timer grows only by its own instruction: any other step, of core or host, leaves it at most as it was. -/
def Obligations.TimersGrowOnlyByTheirInstruction : Prop :=
  ∀ s t : State, step s = .next t →
    (s.dt.toNat < t.dt.toNat → s.run = .running ∧ ∃ x, decodeWord (s.readWord s.pc.toNat) = .ok (.ldDtVx x)) ∧
    (s.st.toNat < t.st.toNat → s.run = .running ∧ ∃ x, decodeWord (s.readWord s.pc.toNat) = .ok (.ldStVx x))

/-- A run that has ended (the spec's convention D23, log 23) stays where it is: the core's step changes nothing. -/
def Obligations.EndedRunStepsInPlace : Prop :=
  ∀ (s : State) (a : Addr), s.EndedAt a → a.toNat ≤ 0xFFE → s.schedule = [] → step s = .next s

/-- The invariant holds right after reset. -/
def Obligations.InvHoldsAtReset : Prop := State.reset.Inv

/-- Every step of core or host, under any schedule, keeps the invariant: canonical memory, a running core is loaded, PC at most 0x10FE,
return addresses at most 0x1000, the key-wait's latch agrees with memory, ERR is clear while the core runs and holds the PC once it has
stopped. -/
def Obligations.EveryStepKeepsInv : Prop :=
  ∀ s t : State, s.Inv → step s = .next t → t.Inv
end

