-- ==== Sys2Proof/Laws/Decode.lean ====
section
/-! SUPPORT. The fields of a word that was put together from its fields, for each format of R61, and the bytes of a word. -/

namespace Sys2Proof

/-! ### The bits of a word in each format -/

theorem getLsbD_wordXYN (a x y n : Nibble) (i : Nat) : (wordXYN a x y n).getLsbD i =
    if i < 4 then n.getLsbD i else if i - 4 < 4 then y.getLsbD (i - 4) else
      if i - 4 - 4 < 4 then x.getLsbD (i - 4 - 4) else a.getLsbD (i - 4 - 4 - 4) := by
  simp only [wordXYN, BitVec.getLsbD_append]

theorem getLsbD_wordXNN (a x : Nibble) (nn : Byte) (i : Nat) : (wordXNN a x nn).getLsbD i =
    if i < 8 then nn.getLsbD i else if i - 8 < 4 then x.getLsbD (i - 8) else a.getLsbD (i - 8 - 4) := by
  simp only [wordXNN, BitVec.getLsbD_append]

theorem getLsbD_wordNNN (a : Nibble) (nnn : Addr) (i : Nat) : (wordNNN a nnn).getLsbD i =
    if i < 12 then nnn.getLsbD i else a.getLsbD (i - 12) := by
  simp only [wordNNN, BitVec.getLsbD_append]

/-! ### Fields of a word put together from its fields -/

@[simp] theorem f1_wordXYN (a x y n : Nibble) : f1 (wordXYN a x y n) = a := by
  apply BitVec.eq_of_getLsbD_eq; intro i hi
  simp only [f1, BitVec.getLsbD_extractLsb', getLsbD_wordXYN, hi, decide_true, Bool.true_and,
    show ¬ (12 + i < 4) by omega, show ¬ (12 + i - 4 < 4) by omega, show ¬ (12 + i - 4 - 4 < 4) by omega, if_false]
  congr 1; omega

@[simp] theorem f2_wordXYN (a x y n : Nibble) : f2 (wordXYN a x y n) = x := by
  apply BitVec.eq_of_getLsbD_eq; intro i hi
  simp only [f2, BitVec.getLsbD_extractLsb', getLsbD_wordXYN, hi, decide_true, Bool.true_and,
    show ¬ (8 + i < 4) by omega, show ¬ (8 + i - 4 < 4) by omega, show 8 + i - 4 - 4 < 4 by omega, if_true, if_false]
  congr 1; omega

@[simp] theorem f3_wordXYN (a x y n : Nibble) : f3 (wordXYN a x y n) = y := by
  apply BitVec.eq_of_getLsbD_eq; intro i hi
  simp only [f3, BitVec.getLsbD_extractLsb', getLsbD_wordXYN, hi, decide_true, Bool.true_and,
    show ¬ (4 + i < 4) by omega, show 4 + i - 4 < 4 by omega, if_true, if_false]
  congr 1; omega

@[simp] theorem f4_wordXYN (a x y n : Nibble) : f4 (wordXYN a x y n) = n := by
  apply BitVec.eq_of_getLsbD_eq; intro i hi
  simp only [f4, BitVec.getLsbD_extractLsb', getLsbD_wordXYN, hi, decide_true, Bool.true_and,
    show 0 + i < 4 by omega, if_true]
  congr 1; omega

@[simp] theorem f1_wordXNN (a x : Nibble) (nn : Byte) : f1 (wordXNN a x nn) = a := by
  apply BitVec.eq_of_getLsbD_eq; intro i hi
  simp only [f1, BitVec.getLsbD_extractLsb', getLsbD_wordXNN, hi, decide_true, Bool.true_and,
    show ¬ (12 + i < 8) by omega, show ¬ (12 + i - 8 < 4) by omega, if_false]
  congr 1; omega

@[simp] theorem f2_wordXNN (a x : Nibble) (nn : Byte) : f2 (wordXNN a x nn) = x := by
  apply BitVec.eq_of_getLsbD_eq; intro i hi
  simp only [f2, BitVec.getLsbD_extractLsb', getLsbD_wordXNN, hi, decide_true, Bool.true_and,
    show ¬ (8 + i < 8) by omega, show 8 + i - 8 < 4 by omega, if_true, if_false]
  congr 1; omega

@[simp] theorem immNN_wordXNN (a x : Nibble) (nn : Byte) : immNN (wordXNN a x nn) = nn := by
  apply BitVec.eq_of_getLsbD_eq; intro i hi
  simp only [immNN, BitVec.getLsbD_extractLsb', getLsbD_wordXNN, hi, decide_true, Bool.true_and,
    show 0 + i < 8 by omega, if_true]
  congr 1; omega

@[simp] theorem f1_wordNNN (a : Nibble) (nnn : Addr) : f1 (wordNNN a nnn) = a := by
  apply BitVec.eq_of_getLsbD_eq; intro i hi
  simp only [f1, BitVec.getLsbD_extractLsb', getLsbD_wordNNN, hi, decide_true, Bool.true_and,
    show ¬ (12 + i < 12) by omega, if_false]
  congr 1; omega

@[simp] theorem immNNN_wordNNN (a : Nibble) (nnn : Addr) : immNNN (wordNNN a nnn) = nnn := by
  apply BitVec.eq_of_getLsbD_eq; intro i hi
  simp only [immNNN, BitVec.getLsbD_extractLsb', getLsbD_wordNNN, hi, decide_true, Bool.true_and,
    show 0 + i < 12 by omega, if_true]
  congr 1; omega

@[simp] theorem immNN_wordNNN (a : Nibble) (nnn : Addr) : immNN (wordNNN a nnn) = nnn.setWidth 8 := by
  apply BitVec.eq_of_getLsbD_eq; intro i hi
  simp only [immNN, BitVec.getLsbD_extractLsb', getLsbD_wordNNN, BitVec.getLsbD_setWidth, hi, decide_true, Bool.true_and,
    show 0 + i < 12 by omega, if_true]
  congr 1; omega

/-- The bytes of a word give the word back. -/
@[simp] theorem wordOfBytes_bytesOfWord (w : Word16) :
    wordOfBytes (w.extractLsb' 8 8) (w.extractLsb' 0 8) = w := by
  apply BitVec.eq_of_getLsbD_eq; intro i hi
  simp only [wordOfBytes, BitVec.getLsbD_append, BitVec.getLsbD_extractLsb']
  by_cases h : i < 8
  · simp [h]
  · simp [h, show i - 8 < 8 by omega, show 8 + (i - 8) = i by omega]

/-- A word is its four fields. -/
theorem wordXYN_fields (w : Word16) : wordXYN (f1 w) (f2 w) (f3 w) (f4 w) = w := by
  apply BitVec.eq_of_getLsbD_eq; intro i hi
  simp only [wordXYN, f1, f2, f3, f4, BitVec.getLsbD_append, BitVec.getLsbD_extractLsb']
  by_cases h1 : i < 4
  · simp [h1]
  · by_cases h2 : i - 4 < 4
    · simp [h1, h2, show 4 + (i - 4) = i by omega]
    · by_cases h3 : i - 4 - 4 < 4
      · simp [h1, h2, h3, show 8 + (i - 4 - 4) = i by omega]
      · simp [h1, h2, h3, show i - 4 - 4 - 4 < 4 by omega, show 12 + (i - 4 - 4 - 4) = i by omega]

/-- A word is its opcode nibble, X and NN. -/
theorem wordXNN_fields (w : Word16) : wordXNN (f1 w) (f2 w) (immNN w) = w := by
  apply BitVec.eq_of_getLsbD_eq; intro i hi
  simp only [wordXNN, f1, f2, immNN, BitVec.getLsbD_append, BitVec.getLsbD_extractLsb']
  by_cases h1 : i < 8
  · simp [h1]
  · by_cases h2 : i - 8 < 4
    · simp [h1, h2, show 8 + (i - 8) = i by omega]
    · simp [h1, h2, show i - 8 - 4 < 4 by omega, show 12 + (i - 8 - 4) = i by omega]

/-- A word is its opcode nibble and NNN. -/
theorem wordNNN_fields (w : Word16) : wordNNN (f1 w) (immNNN w) = w := by
  apply BitVec.eq_of_getLsbD_eq; intro i hi
  simp only [wordNNN, f1, immNNN, BitVec.getLsbD_append, BitVec.getLsbD_extractLsb']
  by_cases h1 : i < 12
  · simp [h1]
  · simp [h1, show i - 12 < 4 by omega, show 12 + (i - 12) = i by omega]

end Sys2Proof
end

