-- ==== Sys2Proof/Laws/Memory.lean ====
section
/-! SUPPORT. The laws of memory: read after write, the canonical form kept by every operation, and equal reads of canonical
memories being equal data. -/

namespace Sys2Proof.Machine.Memory

variable {f : Font}

@[simp] theorem read_nil (a : Nat) : Memory.read f [] a = resetByte f a := rfl

theorem read_cons (b : Nat) (v : Byte) (m : Memory) (a : Nat) :
    Memory.read f ((b, v) :: m) a = if a = b then v else Memory.read f m a := rfl

/-- The canonical form, one entry at a time. -/
theorem wfFrom_cons {lo a : Nat} {v : Byte} {m : Memory} :
    Memory.wfFrom f lo ((a, v) :: m) = true ↔
      lo ≤ a ∧ a < 4096 ∧ v ≠ resetByte f a ∧ Memory.wfFrom f (a + 1) m = true := by
  simp [Memory.wfFrom, and_assoc]

theorem wfFrom_mono {lo lo' : Nat} {m : Memory} (h : lo' ≤ lo) (hm : Memory.wfFrom f lo m = true) :
    Memory.wfFrom f lo' m = true := by
  cases m with
  | nil => rfl
  | cons c m =>
    obtain ⟨a, v⟩ := c
    rw [wfFrom_cons] at hm ⊢
    exact ⟨le_trans h hm.1, hm.2⟩

/-- Below its first address a canonical memory reads as the reset content. -/
theorem read_below {lo : Nat} {m : Memory} (hm : Memory.wfFrom f lo m = true) {a : Nat} (h : a < lo) :
    Memory.read f m a = resetByte f a := by
  induction m generalizing lo with
  | nil => rfl
  | cons c m ih =>
    obtain ⟨b, v⟩ := c
    rw [wfFrom_cons] at hm
    rw [read_cons, if_neg (by omega), ih hm.2.2.2 (by omega)]

/-- Everything a write does to reads of a canonical memory. -/
theorem read_write_from {lo : Nat} {m : Memory} (hm : Memory.wfFrom f lo m = true) (a : Nat) (v : Byte) (b : Nat) :
    Memory.read f (Memory.write f m a v) b = if b = a then v else Memory.read f m b := by
  induction m generalizing lo with
  | nil =>
    by_cases hv : v = resetByte f a <;> by_cases hb : b = a <;> simp [Memory.write, Memory.read, hv, hb]
  | cons c m ih =>
    obtain ⟨e, u⟩ := c
    rw [wfFrom_cons] at hm
    by_cases hlt : a < e
    · by_cases hv : v = resetByte f a
      · by_cases hb : b = a
        · simp [Memory.write, hlt, hv, hb, read_cons, Nat.ne_of_lt hlt, read_below hm.2.2.2 (by omega : a < e + 1)]
        · simp [Memory.write, hlt, hv, hb]
      · simp [Memory.write, hlt, hv, read_cons]
    · by_cases he : a = e
      · subst he
        by_cases hv : v = resetByte f a
        · by_cases hb : b = a
          · simp [Memory.write, hv, hb, read_below hm.2.2.2 (by omega : a < a + 1)]
          · simp [Memory.write, hv, hb, read_cons]
        · by_cases hb : b = a <;> simp [Memory.write, hv, hb, read_cons]
      · by_cases hb : b = e
        · subst hb; simp [Memory.write, hlt, he, read_cons, Ne.symm he]
        · simp [Memory.write, hlt, he, read_cons, hb, ih hm.2.2.2]

/-- A read after a write: the same address gives the byte written, every other address is left alone. -/
theorem read_write {m : Memory} (hm : m.wf f = true) (a : Nat) (v : Byte) (b : Nat) :
    Memory.read f (Memory.write f m a v) b = if b = a then v else Memory.read f m b := read_write_from hm a v b

theorem wfFrom_write {lo : Nat} {m : Memory} (hm : Memory.wfFrom f lo m = true) {a : Nat} (hlo : lo ≤ a)
    (ha : a < 4096) (v : Byte) : Memory.wfFrom f lo (Memory.write f m a v) = true := by
  induction m generalizing lo with
  | nil =>
    by_cases hv : v = resetByte f a
    · simp [Memory.write, hv, Memory.wfFrom]
    · simp only [Memory.write, if_neg hv, wfFrom_cons]; exact ⟨hlo, ha, hv, rfl⟩
  | cons c m ih =>
    obtain ⟨e, u⟩ := c
    have hm' := hm
    rw [wfFrom_cons] at hm
    by_cases hlt : a < e
    · by_cases hv : v = resetByte f a
      · simp only [Memory.write, if_pos hlt, if_pos hv]; exact hm'
      · simp only [Memory.write, if_pos hlt, if_neg hv, wfFrom_cons]
        exact ⟨hlo, ha, hv, hlt, hm.2⟩
    · by_cases he : a = e
      · by_cases hv : v = resetByte f a
        · simp only [Memory.write, if_neg hlt, if_pos he, if_pos hv]
          exact wfFrom_mono (by omega) hm.2.2.2
        · subst he
          simp only [Memory.write, if_neg hlt, if_neg hv, wfFrom_cons, if_true]
          exact ⟨hlo, ha, hv, hm.2.2.2⟩
      · simp only [Memory.write, if_neg hlt, if_neg he, wfFrom_cons]
        exact ⟨hm.1, hm.2.1, hm.2.2.1, ih hm.2.2.2 (by omega)⟩

/-- A write inside the address space keeps the canonical form. -/
theorem wf_write {m : Memory} (hm : m.wf f = true) {a : Nat} (ha : a < 4096) (v : Byte) :
    (Memory.write f m a v).wf f = true := wfFrom_write hm (Nat.zero_le _) ha v

@[simp] theorem wf_nil : Memory.wf f [] = true := rfl

/-- A run of writes inside the address space keeps the canonical form. -/
theorem wf_writeBytes {m : Memory} (hm : m.wf f = true) {a : Nat} {vs : List Byte} (h : a + vs.length ≤ 4096) :
    (m.writeBytes f a vs).wf f = true := by
  induction vs generalizing m a with
  | nil => exact hm
  | cons v vs ih =>
    simp only [List.length_cons] at h
    exact ih (wf_write hm (by omega) v) (by omega)

/-- Everything a run of writes does to reads: the bytes lie at ascending addresses, every other address is left alone. -/
theorem read_writeBytes {m : Memory} (hm : m.wf f = true) {a : Nat} {vs : List Byte} (h : a + vs.length ≤ 4096)
    (b : Nat) :
    (m.writeBytes f a vs).read f b = if a ≤ b ∧ b < a + vs.length then vs.getD (b - a) 0#8 else m.read f b := by
  induction vs generalizing m a with
  | nil =>
    have h' : ¬ (a ≤ b ∧ b < a + ([] : List Byte).length) := by simp
    rw [if_neg h']; rfl
  | cons v vs ih =>
    simp only [List.length_cons] at h ⊢
    show ((m.write f a v).writeBytes f (a + 1) vs).read f b = _
    rw [ih (wf_write hm (by omega) v) (by omega), read_write hm]
    by_cases h1 : b = a
    · have h2 : ¬ (a + 1 ≤ b ∧ b < a + 1 + vs.length) := by omega
      have h3 : a ≤ b ∧ b < a + (vs.length + 1) := by omega
      rw [if_neg h2, if_pos h1, if_pos h3, h1]; simp
    · by_cases h2 : a + 1 ≤ b ∧ b < a + 1 + vs.length
      · have h3 : a ≤ b ∧ b < a + (vs.length + 1) := by omega
        obtain ⟨n, hn⟩ : ∃ n, b - a = n + 1 := ⟨b - a - 1, by omega⟩
        rw [if_pos h2, if_pos h3, hn, show b - (a + 1) = n by omega, List.getD_cons_succ]
      · have h3 : ¬ (a ≤ b ∧ b < a + (vs.length + 1)) := by omega
        rw [if_neg h2, if_neg h1, if_neg h3]

@[simp] theorem length_readBytes (m : Memory) (a n : Nat) : (m.readBytes f a n).length = n := by
  induction n generalizing a with
  | zero => rfl
  | succ n ih => simp [Memory.readBytes, ih]

/-- The j-th byte of a run of reads. -/
theorem getD_readBytes (m : Memory) (a n j : Nat) (h : j < n) : (m.readBytes f a n).getD j 0#8 = m.read f (a + j) := by
  induction n generalizing a j with
  | zero => omega
  | succ n ih =>
    cases j with
    | zero => rfl
    | succ j =>
      rw [Memory.readBytes, List.getD_cons_succ, ih (a + 1) j (by omega)]
      congr 1; omega

end Sys2Proof.Machine.Memory
end

