-- ==== Sys2Proof/Laws/State.lean ====
section
/-! SUPPORT. One lemma per field per named update of the state, each true by rfl, so that no proof unfolds a record update. -/

namespace Sys2Proof.Machine.State

variable (s : State)

/-! ### setReg -/

@[simp] theorem setReg_v (x : Nibble) (b : Byte) : (s.setReg x b).v = s.v.set (regSlot x) b := rfl
@[simp] theorem setReg_i (x : Nibble) (b : Byte) : (s.setReg x b).i = s.i := rfl
@[simp] theorem setReg_pc (x : Nibble) (b : Byte) : (s.setReg x b).pc = s.pc := rfl
@[simp] theorem setReg_stk (x : Nibble) (b : Byte) : (s.setReg x b).stk = s.stk := rfl
@[simp] theorem setReg_sp (x : Nibble) (b : Byte) : (s.setReg x b).sp = s.sp := rfl
@[simp] theorem setReg_mem (x : Nibble) (b : Byte) : (s.setReg x b).mem = s.mem := rfl
@[simp] theorem setReg_display (x : Nibble) (b : Byte) : (s.setReg x b).display = s.display := rfl
@[simp] theorem setReg_keys (x : Nibble) (b : Byte) : (s.setReg x b).keys = s.keys := rfl
@[simp] theorem setReg_lastKey (x : Nibble) (b : Byte) : (s.setReg x b).lastKey = s.lastKey := rfl
@[simp] theorem setReg_dt (x : Nibble) (b : Byte) : (s.setReg x b).dt = s.dt := rfl
@[simp] theorem setReg_st (x : Nibble) (b : Byte) : (s.setReg x b).st = s.st := rfl
@[simp] theorem setReg_loaded (x : Nibble) (b : Byte) : (s.setReg x b).loaded = s.loaded := rfl
@[simp] theorem setReg_run (x : Nibble) (b : Byte) : (s.setReg x b).run = s.run := rfl
@[simp] theorem setReg_waitX (x : Nibble) (b : Byte) : (s.setReg x b).waitX = s.waitX := rfl
@[simp] theorem setReg_err (x : Nibble) (b : Byte) : (s.setReg x b).err = s.err := rfl
@[simp] theorem setReg_font (x : Nibble) (b : Byte) : (s.setReg x b).font = s.font := rfl
@[simp] theorem setReg_draws (x : Nibble) (b : Byte) : (s.setReg x b).draws = s.draws := rfl
@[simp] theorem setReg_schedule (x : Nibble) (b : Byte) : (s.setReg x b).schedule = s.schedule := rfl

/-! ### setIndex -/

@[simp] theorem setIndex_v (a : Addr) : (s.setIndex a).v = s.v := rfl
@[simp] theorem setIndex_i (a : Addr) : (s.setIndex a).i = a := rfl
@[simp] theorem setIndex_pc (a : Addr) : (s.setIndex a).pc = s.pc := rfl
@[simp] theorem setIndex_stk (a : Addr) : (s.setIndex a).stk = s.stk := rfl
@[simp] theorem setIndex_sp (a : Addr) : (s.setIndex a).sp = s.sp := rfl
@[simp] theorem setIndex_mem (a : Addr) : (s.setIndex a).mem = s.mem := rfl
@[simp] theorem setIndex_display (a : Addr) : (s.setIndex a).display = s.display := rfl
@[simp] theorem setIndex_keys (a : Addr) : (s.setIndex a).keys = s.keys := rfl
@[simp] theorem setIndex_lastKey (a : Addr) : (s.setIndex a).lastKey = s.lastKey := rfl
@[simp] theorem setIndex_dt (a : Addr) : (s.setIndex a).dt = s.dt := rfl
@[simp] theorem setIndex_st (a : Addr) : (s.setIndex a).st = s.st := rfl
@[simp] theorem setIndex_loaded (a : Addr) : (s.setIndex a).loaded = s.loaded := rfl
@[simp] theorem setIndex_run (a : Addr) : (s.setIndex a).run = s.run := rfl
@[simp] theorem setIndex_waitX (a : Addr) : (s.setIndex a).waitX = s.waitX := rfl
@[simp] theorem setIndex_err (a : Addr) : (s.setIndex a).err = s.err := rfl
@[simp] theorem setIndex_font (a : Addr) : (s.setIndex a).font = s.font := rfl
@[simp] theorem setIndex_draws (a : Addr) : (s.setIndex a).draws = s.draws := rfl
@[simp] theorem setIndex_schedule (a : Addr) : (s.setIndex a).schedule = s.schedule := rfl

/-! ### setPc -/

@[simp] theorem setPc_v (t : Pc) : (s.setPc t).v = s.v := rfl
@[simp] theorem setPc_i (t : Pc) : (s.setPc t).i = s.i := rfl
@[simp] theorem setPc_pc (t : Pc) : (s.setPc t).pc = t := rfl
@[simp] theorem setPc_stk (t : Pc) : (s.setPc t).stk = s.stk := rfl
@[simp] theorem setPc_sp (t : Pc) : (s.setPc t).sp = s.sp := rfl
@[simp] theorem setPc_mem (t : Pc) : (s.setPc t).mem = s.mem := rfl
@[simp] theorem setPc_display (t : Pc) : (s.setPc t).display = s.display := rfl
@[simp] theorem setPc_keys (t : Pc) : (s.setPc t).keys = s.keys := rfl
@[simp] theorem setPc_lastKey (t : Pc) : (s.setPc t).lastKey = s.lastKey := rfl
@[simp] theorem setPc_dt (t : Pc) : (s.setPc t).dt = s.dt := rfl
@[simp] theorem setPc_st (t : Pc) : (s.setPc t).st = s.st := rfl
@[simp] theorem setPc_loaded (t : Pc) : (s.setPc t).loaded = s.loaded := rfl
@[simp] theorem setPc_run (t : Pc) : (s.setPc t).run = s.run := rfl
@[simp] theorem setPc_waitX (t : Pc) : (s.setPc t).waitX = s.waitX := rfl
@[simp] theorem setPc_err (t : Pc) : (s.setPc t).err = s.err := rfl
@[simp] theorem setPc_font (t : Pc) : (s.setPc t).font = s.font := rfl
@[simp] theorem setPc_draws (t : Pc) : (s.setPc t).draws = s.draws := rfl
@[simp] theorem setPc_schedule (t : Pc) : (s.setPc t).schedule = s.schedule := rfl

/-! ### setMem -/

@[simp] theorem setMem_v (m : Memory) : (s.setMem m).v = s.v := rfl
@[simp] theorem setMem_i (m : Memory) : (s.setMem m).i = s.i := rfl
@[simp] theorem setMem_pc (m : Memory) : (s.setMem m).pc = s.pc := rfl
@[simp] theorem setMem_stk (m : Memory) : (s.setMem m).stk = s.stk := rfl
@[simp] theorem setMem_sp (m : Memory) : (s.setMem m).sp = s.sp := rfl
@[simp] theorem setMem_mem (m : Memory) : (s.setMem m).mem = m := rfl
@[simp] theorem setMem_display (m : Memory) : (s.setMem m).display = s.display := rfl
@[simp] theorem setMem_keys (m : Memory) : (s.setMem m).keys = s.keys := rfl
@[simp] theorem setMem_lastKey (m : Memory) : (s.setMem m).lastKey = s.lastKey := rfl
@[simp] theorem setMem_dt (m : Memory) : (s.setMem m).dt = s.dt := rfl
@[simp] theorem setMem_st (m : Memory) : (s.setMem m).st = s.st := rfl
@[simp] theorem setMem_loaded (m : Memory) : (s.setMem m).loaded = s.loaded := rfl
@[simp] theorem setMem_run (m : Memory) : (s.setMem m).run = s.run := rfl
@[simp] theorem setMem_waitX (m : Memory) : (s.setMem m).waitX = s.waitX := rfl
@[simp] theorem setMem_err (m : Memory) : (s.setMem m).err = s.err := rfl
@[simp] theorem setMem_font (m : Memory) : (s.setMem m).font = s.font := rfl
@[simp] theorem setMem_draws (m : Memory) : (s.setMem m).draws = s.draws := rfl
@[simp] theorem setMem_schedule (m : Memory) : (s.setMem m).schedule = s.schedule := rfl

/-! ### storeBytes -/

@[simp] theorem storeBytes_v (a : Nat) (vs : List Byte) : (s.storeBytes a vs).v = s.v := rfl
@[simp] theorem storeBytes_i (a : Nat) (vs : List Byte) : (s.storeBytes a vs).i = s.i := rfl
@[simp] theorem storeBytes_pc (a : Nat) (vs : List Byte) : (s.storeBytes a vs).pc = s.pc := rfl
@[simp] theorem storeBytes_stk (a : Nat) (vs : List Byte) : (s.storeBytes a vs).stk = s.stk := rfl
@[simp] theorem storeBytes_sp (a : Nat) (vs : List Byte) : (s.storeBytes a vs).sp = s.sp := rfl
@[simp] theorem storeBytes_mem (a : Nat) (vs : List Byte) : (s.storeBytes a vs).mem = s.mem.writeBytes s.font a vs := rfl
@[simp] theorem storeBytes_display (a : Nat) (vs : List Byte) : (s.storeBytes a vs).display = s.display := rfl
@[simp] theorem storeBytes_keys (a : Nat) (vs : List Byte) : (s.storeBytes a vs).keys = s.keys := rfl
@[simp] theorem storeBytes_lastKey (a : Nat) (vs : List Byte) : (s.storeBytes a vs).lastKey = s.lastKey := rfl
@[simp] theorem storeBytes_dt (a : Nat) (vs : List Byte) : (s.storeBytes a vs).dt = s.dt := rfl
@[simp] theorem storeBytes_st (a : Nat) (vs : List Byte) : (s.storeBytes a vs).st = s.st := rfl
@[simp] theorem storeBytes_loaded (a : Nat) (vs : List Byte) : (s.storeBytes a vs).loaded = s.loaded := rfl
@[simp] theorem storeBytes_run (a : Nat) (vs : List Byte) : (s.storeBytes a vs).run = s.run := rfl
@[simp] theorem storeBytes_waitX (a : Nat) (vs : List Byte) : (s.storeBytes a vs).waitX = s.waitX := rfl
@[simp] theorem storeBytes_err (a : Nat) (vs : List Byte) : (s.storeBytes a vs).err = s.err := rfl
@[simp] theorem storeBytes_font (a : Nat) (vs : List Byte) : (s.storeBytes a vs).font = s.font := rfl
@[simp] theorem storeBytes_draws (a : Nat) (vs : List Byte) : (s.storeBytes a vs).draws = s.draws := rfl
@[simp] theorem storeBytes_schedule (a : Nat) (vs : List Byte) : (s.storeBytes a vs).schedule = s.schedule := rfl

/-! ### setDisplay -/

@[simp] theorem setDisplay_v (d : Display) : (s.setDisplay d).v = s.v := rfl
@[simp] theorem setDisplay_i (d : Display) : (s.setDisplay d).i = s.i := rfl
@[simp] theorem setDisplay_pc (d : Display) : (s.setDisplay d).pc = s.pc := rfl
@[simp] theorem setDisplay_stk (d : Display) : (s.setDisplay d).stk = s.stk := rfl
@[simp] theorem setDisplay_sp (d : Display) : (s.setDisplay d).sp = s.sp := rfl
@[simp] theorem setDisplay_mem (d : Display) : (s.setDisplay d).mem = s.mem := rfl
@[simp] theorem setDisplay_display (d : Display) : (s.setDisplay d).display = d := rfl
@[simp] theorem setDisplay_keys (d : Display) : (s.setDisplay d).keys = s.keys := rfl
@[simp] theorem setDisplay_lastKey (d : Display) : (s.setDisplay d).lastKey = s.lastKey := rfl
@[simp] theorem setDisplay_dt (d : Display) : (s.setDisplay d).dt = s.dt := rfl
@[simp] theorem setDisplay_st (d : Display) : (s.setDisplay d).st = s.st := rfl
@[simp] theorem setDisplay_loaded (d : Display) : (s.setDisplay d).loaded = s.loaded := rfl
@[simp] theorem setDisplay_run (d : Display) : (s.setDisplay d).run = s.run := rfl
@[simp] theorem setDisplay_waitX (d : Display) : (s.setDisplay d).waitX = s.waitX := rfl
@[simp] theorem setDisplay_err (d : Display) : (s.setDisplay d).err = s.err := rfl
@[simp] theorem setDisplay_font (d : Display) : (s.setDisplay d).font = s.font := rfl
@[simp] theorem setDisplay_draws (d : Display) : (s.setDisplay d).draws = s.draws := rfl
@[simp] theorem setDisplay_schedule (d : Display) : (s.setDisplay d).schedule = s.schedule := rfl

/-! ### setDelay -/

@[simp] theorem setDelay_v (b : Byte) : (s.setDelay b).v = s.v := rfl
@[simp] theorem setDelay_i (b : Byte) : (s.setDelay b).i = s.i := rfl
@[simp] theorem setDelay_pc (b : Byte) : (s.setDelay b).pc = s.pc := rfl
@[simp] theorem setDelay_stk (b : Byte) : (s.setDelay b).stk = s.stk := rfl
@[simp] theorem setDelay_sp (b : Byte) : (s.setDelay b).sp = s.sp := rfl
@[simp] theorem setDelay_mem (b : Byte) : (s.setDelay b).mem = s.mem := rfl
@[simp] theorem setDelay_display (b : Byte) : (s.setDelay b).display = s.display := rfl
@[simp] theorem setDelay_keys (b : Byte) : (s.setDelay b).keys = s.keys := rfl
@[simp] theorem setDelay_lastKey (b : Byte) : (s.setDelay b).lastKey = s.lastKey := rfl
@[simp] theorem setDelay_dt (b : Byte) : (s.setDelay b).dt = b := rfl
@[simp] theorem setDelay_st (b : Byte) : (s.setDelay b).st = s.st := rfl
@[simp] theorem setDelay_loaded (b : Byte) : (s.setDelay b).loaded = s.loaded := rfl
@[simp] theorem setDelay_run (b : Byte) : (s.setDelay b).run = s.run := rfl
@[simp] theorem setDelay_waitX (b : Byte) : (s.setDelay b).waitX = s.waitX := rfl
@[simp] theorem setDelay_err (b : Byte) : (s.setDelay b).err = s.err := rfl
@[simp] theorem setDelay_font (b : Byte) : (s.setDelay b).font = s.font := rfl
@[simp] theorem setDelay_draws (b : Byte) : (s.setDelay b).draws = s.draws := rfl
@[simp] theorem setDelay_schedule (b : Byte) : (s.setDelay b).schedule = s.schedule := rfl

/-! ### setSound -/

@[simp] theorem setSound_v (b : Byte) : (s.setSound b).v = s.v := rfl
@[simp] theorem setSound_i (b : Byte) : (s.setSound b).i = s.i := rfl
@[simp] theorem setSound_pc (b : Byte) : (s.setSound b).pc = s.pc := rfl
@[simp] theorem setSound_stk (b : Byte) : (s.setSound b).stk = s.stk := rfl
@[simp] theorem setSound_sp (b : Byte) : (s.setSound b).sp = s.sp := rfl
@[simp] theorem setSound_mem (b : Byte) : (s.setSound b).mem = s.mem := rfl
@[simp] theorem setSound_display (b : Byte) : (s.setSound b).display = s.display := rfl
@[simp] theorem setSound_keys (b : Byte) : (s.setSound b).keys = s.keys := rfl
@[simp] theorem setSound_lastKey (b : Byte) : (s.setSound b).lastKey = s.lastKey := rfl
@[simp] theorem setSound_dt (b : Byte) : (s.setSound b).dt = s.dt := rfl
@[simp] theorem setSound_st (b : Byte) : (s.setSound b).st = b := rfl
@[simp] theorem setSound_loaded (b : Byte) : (s.setSound b).loaded = s.loaded := rfl
@[simp] theorem setSound_run (b : Byte) : (s.setSound b).run = s.run := rfl
@[simp] theorem setSound_waitX (b : Byte) : (s.setSound b).waitX = s.waitX := rfl
@[simp] theorem setSound_err (b : Byte) : (s.setSound b).err = s.err := rfl
@[simp] theorem setSound_font (b : Byte) : (s.setSound b).font = s.font := rfl
@[simp] theorem setSound_draws (b : Byte) : (s.setSound b).draws = s.draws := rfl
@[simp] theorem setSound_schedule (b : Byte) : (s.setSound b).schedule = s.schedule := rfl

/-! ### advance -/

@[simp] theorem advance_v : (s.advance).v = s.v := rfl
@[simp] theorem advance_i : (s.advance).i = s.i := rfl
@[simp] theorem advance_pc : (s.advance).pc = s.npc := rfl
@[simp] theorem advance_stk : (s.advance).stk = s.stk := rfl
@[simp] theorem advance_sp : (s.advance).sp = s.sp := rfl
@[simp] theorem advance_mem : (s.advance).mem = s.mem := rfl
@[simp] theorem advance_display : (s.advance).display = s.display := rfl
@[simp] theorem advance_keys : (s.advance).keys = s.keys := rfl
@[simp] theorem advance_lastKey : (s.advance).lastKey = s.lastKey := rfl
@[simp] theorem advance_dt : (s.advance).dt = s.dt := rfl
@[simp] theorem advance_st : (s.advance).st = s.st := rfl
@[simp] theorem advance_loaded : (s.advance).loaded = s.loaded := rfl
@[simp] theorem advance_run : (s.advance).run = s.run := rfl
@[simp] theorem advance_waitX : (s.advance).waitX = s.waitX := rfl
@[simp] theorem advance_err : (s.advance).err = s.err := rfl
@[simp] theorem advance_font : (s.advance).font = s.font := rfl
@[simp] theorem advance_draws : (s.advance).draws = s.draws := rfl
@[simp] theorem advance_schedule : (s.advance).schedule = s.schedule := rfl

/-! ### skipIf -/

@[simp] theorem skipIf_v (c : Bool) : (s.skipIf c).v = s.v := rfl
@[simp] theorem skipIf_i (c : Bool) : (s.skipIf c).i = s.i := rfl
@[simp] theorem skipIf_pc (c : Bool) : (s.skipIf c).pc = if c then s.npc + 2#13 else s.npc := rfl
@[simp] theorem skipIf_stk (c : Bool) : (s.skipIf c).stk = s.stk := rfl
@[simp] theorem skipIf_sp (c : Bool) : (s.skipIf c).sp = s.sp := rfl
@[simp] theorem skipIf_mem (c : Bool) : (s.skipIf c).mem = s.mem := rfl
@[simp] theorem skipIf_display (c : Bool) : (s.skipIf c).display = s.display := rfl
@[simp] theorem skipIf_keys (c : Bool) : (s.skipIf c).keys = s.keys := rfl
@[simp] theorem skipIf_lastKey (c : Bool) : (s.skipIf c).lastKey = s.lastKey := rfl
@[simp] theorem skipIf_dt (c : Bool) : (s.skipIf c).dt = s.dt := rfl
@[simp] theorem skipIf_st (c : Bool) : (s.skipIf c).st = s.st := rfl
@[simp] theorem skipIf_loaded (c : Bool) : (s.skipIf c).loaded = s.loaded := rfl
@[simp] theorem skipIf_run (c : Bool) : (s.skipIf c).run = s.run := rfl
@[simp] theorem skipIf_waitX (c : Bool) : (s.skipIf c).waitX = s.waitX := rfl
@[simp] theorem skipIf_err (c : Bool) : (s.skipIf c).err = s.err := rfl
@[simp] theorem skipIf_font (c : Bool) : (s.skipIf c).font = s.font := rfl
@[simp] theorem skipIf_draws (c : Bool) : (s.skipIf c).draws = s.draws := rfl
@[simp] theorem skipIf_schedule (c : Bool) : (s.skipIf c).schedule = s.schedule := rfl

/-! ### suspend -/

@[simp] theorem suspend_v (x : Nibble) : (s.suspend x).v = s.v := rfl
@[simp] theorem suspend_i (x : Nibble) : (s.suspend x).i = s.i := rfl
@[simp] theorem suspend_pc (x : Nibble) : (s.suspend x).pc = s.pc := rfl
@[simp] theorem suspend_stk (x : Nibble) : (s.suspend x).stk = s.stk := rfl
@[simp] theorem suspend_sp (x : Nibble) : (s.suspend x).sp = s.sp := rfl
@[simp] theorem suspend_mem (x : Nibble) : (s.suspend x).mem = s.mem := rfl
@[simp] theorem suspend_display (x : Nibble) : (s.suspend x).display = s.display := rfl
@[simp] theorem suspend_keys (x : Nibble) : (s.suspend x).keys = s.keys := rfl
@[simp] theorem suspend_lastKey (x : Nibble) : (s.suspend x).lastKey = s.lastKey := rfl
@[simp] theorem suspend_dt (x : Nibble) : (s.suspend x).dt = s.dt := rfl
@[simp] theorem suspend_st (x : Nibble) : (s.suspend x).st = s.st := rfl
@[simp] theorem suspend_loaded (x : Nibble) : (s.suspend x).loaded = s.loaded := rfl
@[simp] theorem suspend_run (x : Nibble) : (s.suspend x).run = .waitKey := rfl
@[simp] theorem suspend_waitX (x : Nibble) : (s.suspend x).waitX = x := rfl
@[simp] theorem suspend_err (x : Nibble) : (s.suspend x).err = s.err := rfl
@[simp] theorem suspend_font (x : Nibble) : (s.suspend x).font = s.font := rfl
@[simp] theorem suspend_draws (x : Nibble) : (s.suspend x).draws = s.draws := rfl
@[simp] theorem suspend_schedule (x : Nibble) : (s.suspend x).schedule = s.schedule := rfl

/-! ### raise -/

@[simp] theorem raise_v (k : ErrKind) : (s.raise k).v = s.v := rfl
@[simp] theorem raise_i (k : ErrKind) : (s.raise k).i = s.i := rfl
@[simp] theorem raise_pc (k : ErrKind) : (s.raise k).pc = s.pc := rfl
@[simp] theorem raise_stk (k : ErrKind) : (s.raise k).stk = s.stk := rfl
@[simp] theorem raise_sp (k : ErrKind) : (s.raise k).sp = s.sp := rfl
@[simp] theorem raise_mem (k : ErrKind) : (s.raise k).mem = s.mem := rfl
@[simp] theorem raise_display (k : ErrKind) : (s.raise k).display = s.display := rfl
@[simp] theorem raise_keys (k : ErrKind) : (s.raise k).keys = s.keys := rfl
@[simp] theorem raise_lastKey (k : ErrKind) : (s.raise k).lastKey = s.lastKey := rfl
@[simp] theorem raise_dt (k : ErrKind) : (s.raise k).dt = s.dt := rfl
@[simp] theorem raise_st (k : ErrKind) : (s.raise k).st = s.st := rfl
@[simp] theorem raise_loaded (k : ErrKind) : (s.raise k).loaded = s.loaded := rfl
@[simp] theorem raise_run (k : ErrKind) : (s.raise k).run = .idle := rfl
@[simp] theorem raise_waitX (k : ErrKind) : (s.raise k).waitX = s.waitX := rfl
@[simp] theorem raise_err (k : ErrKind) : (s.raise k).err = ⟨k, s.pc⟩ := rfl
@[simp] theorem raise_font (k : ErrKind) : (s.raise k).font = s.font := rfl
@[simp] theorem raise_draws (k : ErrKind) : (s.raise k).draws = s.draws := rfl
@[simp] theorem raise_schedule (k : ErrKind) : (s.raise k).schedule = s.schedule := rfl

/-! ### latchKey -/

@[simp] theorem latchKey_v (k : Nibble) : (s.latchKey k).v = s.v := rfl
@[simp] theorem latchKey_i (k : Nibble) : (s.latchKey k).i = s.i := rfl
@[simp] theorem latchKey_pc (k : Nibble) : (s.latchKey k).pc = s.pc := rfl
@[simp] theorem latchKey_stk (k : Nibble) : (s.latchKey k).stk = s.stk := rfl
@[simp] theorem latchKey_sp (k : Nibble) : (s.latchKey k).sp = s.sp := rfl
@[simp] theorem latchKey_mem (k : Nibble) : (s.latchKey k).mem = s.mem := rfl
@[simp] theorem latchKey_display (k : Nibble) : (s.latchKey k).display = s.display := rfl
@[simp] theorem latchKey_keys (k : Nibble) : (s.latchKey k).keys = s.keys.set (regSlot k) true := rfl
@[simp] theorem latchKey_lastKey (k : Nibble) : (s.latchKey k).lastKey = some k := rfl
@[simp] theorem latchKey_dt (k : Nibble) : (s.latchKey k).dt = s.dt := rfl
@[simp] theorem latchKey_st (k : Nibble) : (s.latchKey k).st = s.st := rfl
@[simp] theorem latchKey_loaded (k : Nibble) : (s.latchKey k).loaded = s.loaded := rfl
@[simp] theorem latchKey_run (k : Nibble) : (s.latchKey k).run = s.run := rfl
@[simp] theorem latchKey_waitX (k : Nibble) : (s.latchKey k).waitX = s.waitX := rfl
@[simp] theorem latchKey_err (k : Nibble) : (s.latchKey k).err = s.err := rfl
@[simp] theorem latchKey_font (k : Nibble) : (s.latchKey k).font = s.font := rfl
@[simp] theorem latchKey_draws (k : Nibble) : (s.latchKey k).draws = s.draws := rfl
@[simp] theorem latchKey_schedule (k : Nibble) : (s.latchKey k).schedule = s.schedule := rfl

/-! ### The register and key reads over updates that leave V and K alone -/

@[simp] theorem setIndex_reg (a : Addr) (z : Nibble) : (s.setIndex a).reg z = s.reg z := rfl
@[simp] theorem setPc_reg (t : Pc) (z : Nibble) : (s.setPc t).reg z = s.reg z := rfl
@[simp] theorem setMem_reg (m : Memory) (z : Nibble) : (s.setMem m).reg z = s.reg z := rfl
@[simp] theorem storeBytes_reg (a : Nat) (vs : List Byte) (z : Nibble) : (s.storeBytes a vs).reg z = s.reg z := rfl
@[simp] theorem setDisplay_reg (d : Display) (z : Nibble) : (s.setDisplay d).reg z = s.reg z := rfl
@[simp] theorem setDelay_reg (b : Byte) (z : Nibble) : (s.setDelay b).reg z = s.reg z := rfl
@[simp] theorem setSound_reg (b : Byte) (z : Nibble) : (s.setSound b).reg z = s.reg z := rfl
@[simp] theorem advance_reg (z : Nibble) : (s.advance).reg z = s.reg z := rfl
@[simp] theorem skipIf_reg (c : Bool) (z : Nibble) : (s.skipIf c).reg z = s.reg z := rfl
@[simp] theorem suspend_reg (x : Nibble) (z : Nibble) : (s.suspend x).reg z = s.reg z := rfl
@[simp] theorem raise_reg (k : ErrKind) (z : Nibble) : (s.raise k).reg z = s.reg z := rfl
@[simp] theorem latchKey_reg (k : Nibble) (z : Nibble) : (s.latchKey k).reg z = s.reg z := rfl
@[simp] theorem setReg_key (x : Nibble) (b : Byte) (z : Nibble) : (s.setReg x b).key z = s.key z := rfl
@[simp] theorem setIndex_key (a : Addr) (z : Nibble) : (s.setIndex a).key z = s.key z := rfl
@[simp] theorem setPc_key (t : Pc) (z : Nibble) : (s.setPc t).key z = s.key z := rfl
@[simp] theorem setMem_key (m : Memory) (z : Nibble) : (s.setMem m).key z = s.key z := rfl
@[simp] theorem storeBytes_key (a : Nat) (vs : List Byte) (z : Nibble) : (s.storeBytes a vs).key z = s.key z := rfl
@[simp] theorem setDisplay_key (d : Display) (z : Nibble) : (s.setDisplay d).key z = s.key z := rfl
@[simp] theorem setDelay_key (b : Byte) (z : Nibble) : (s.setDelay b).key z = s.key z := rfl
@[simp] theorem setSound_key (b : Byte) (z : Nibble) : (s.setSound b).key z = s.key z := rfl
@[simp] theorem advance_key (z : Nibble) : (s.advance).key z = s.key z := rfl
@[simp] theorem skipIf_key (c : Bool) (z : Nibble) : (s.skipIf c).key z = s.key z := rfl
@[simp] theorem suspend_key (x : Nibble) (z : Nibble) : (s.suspend x).key z = s.key z := rfl
@[simp] theorem raise_key (k : ErrKind) (z : Nibble) : (s.raise k).key z = s.key z := rfl
@[simp] theorem setReg_npc (x : Nibble) (b : Byte) : (s.setReg x b).npc = s.npc := rfl
@[simp] theorem setIndex_npc (a : Addr) : (s.setIndex a).npc = s.npc := rfl
@[simp] theorem setMem_npc (m : Memory) : (s.setMem m).npc = s.npc := rfl
@[simp] theorem storeBytes_npc (a : Nat) (vs : List Byte) : (s.storeBytes a vs).npc = s.npc := rfl
@[simp] theorem setDisplay_npc (d : Display) : (s.setDisplay d).npc = s.npc := rfl
@[simp] theorem setDelay_npc (b : Byte) : (s.setDelay b).npc = s.npc := rfl
@[simp] theorem setSound_npc (b : Byte) : (s.setSound b).npc = s.npc := rfl
@[simp] theorem suspend_npc (x : Nibble) : (s.suspend x).npc = s.npc := rfl
@[simp] theorem raise_npc (k : ErrKind) : (s.raise k).npc = s.npc := rfl
@[simp] theorem latchKey_npc (k : Nibble) : (s.latchKey k).npc = s.npc := rfl

/-! ### The byte reads over updates that leave memory alone -/

@[simp] theorem setReg_readByte (x : Nibble) (b : Byte) (q : Nat) : (s.setReg x b).readByte q = s.readByte q := rfl
@[simp] theorem setIndex_readByte (a : Addr) (q : Nat) : (s.setIndex a).readByte q = s.readByte q := rfl
@[simp] theorem setPc_readByte (t : Pc) (q : Nat) : (s.setPc t).readByte q = s.readByte q := rfl
@[simp] theorem setDisplay_readByte (d : Display) (q : Nat) : (s.setDisplay d).readByte q = s.readByte q := rfl
@[simp] theorem setDelay_readByte (b : Byte) (q : Nat) : (s.setDelay b).readByte q = s.readByte q := rfl
@[simp] theorem setSound_readByte (b : Byte) (q : Nat) : (s.setSound b).readByte q = s.readByte q := rfl
@[simp] theorem advance_readByte (q : Nat) : (s.advance).readByte q = s.readByte q := rfl
@[simp] theorem skipIf_readByte (c : Bool) (q : Nat) : (s.skipIf c).readByte q = s.readByte q := rfl
@[simp] theorem suspend_readByte (x : Nibble) (q : Nat) : (s.suspend x).readByte q = s.readByte q := rfl
@[simp] theorem raise_readByte (k : ErrKind) (q : Nat) : (s.raise k).readByte q = s.readByte q := rfl
@[simp] theorem latchKey_readByte (k : Nibble) (q : Nat) : (s.latchKey k).readByte q = s.readByte q := rfl

/-! ### The two parts of a draw of the free byte -/

@[simp] theorem drawByte_fst : s.drawByte.1 = Config.draw8 s.draws := rfl
@[simp] theorem drawByte_snd_v : s.drawByte.2.v = s.v := rfl
@[simp] theorem drawByte_snd_i : s.drawByte.2.i = s.i := rfl
@[simp] theorem drawByte_snd_pc : s.drawByte.2.pc = s.pc := rfl
@[simp] theorem drawByte_snd_stk : s.drawByte.2.stk = s.stk := rfl
@[simp] theorem drawByte_snd_sp : s.drawByte.2.sp = s.sp := rfl
@[simp] theorem drawByte_snd_mem : s.drawByte.2.mem = s.mem := rfl
@[simp] theorem drawByte_snd_display : s.drawByte.2.display = s.display := rfl
@[simp] theorem drawByte_snd_keys : s.drawByte.2.keys = s.keys := rfl
@[simp] theorem drawByte_snd_lastKey : s.drawByte.2.lastKey = s.lastKey := rfl
@[simp] theorem drawByte_snd_dt : s.drawByte.2.dt = s.dt := rfl
@[simp] theorem drawByte_snd_st : s.drawByte.2.st = s.st := rfl
@[simp] theorem drawByte_snd_loaded : s.drawByte.2.loaded = s.loaded := rfl
@[simp] theorem drawByte_snd_run : s.drawByte.2.run = s.run := rfl
@[simp] theorem drawByte_snd_waitX : s.drawByte.2.waitX = s.waitX := rfl
@[simp] theorem drawByte_snd_err : s.drawByte.2.err = s.err := rfl
@[simp] theorem drawByte_snd_font : s.drawByte.2.font = s.font := rfl
@[simp] theorem drawByte_snd_draws : s.drawByte.2.draws = s.draws + 1 := rfl
@[simp] theorem drawByte_snd_schedule : s.drawByte.2.schedule = s.schedule := rfl
@[simp] theorem drawByte_snd_reg (z : Nibble) : s.drawByte.2.reg z = s.reg z := rfl
@[simp] theorem drawByte_snd_npc : s.drawByte.2.npc = s.npc := rfl

end Sys2Proof.Machine.State
end

