-- ==== Sys2Proof/Laws/Registers.lean ====
section
/-! SUPPORT. Reading a register after writing registers, the flag writers' two writes, the runs of registers of FX55 and FX65,
and the key latch. -/

namespace Sys2Proof.Machine

theorem regSlot_inj {x y : Nibble} : regSlot x = regSlot y ↔ x = y := by
  constructor
  · intro h; exact BitVec.eq_of_toNat_eq (congrArg Fin.val h)
  · rintro rfl; rfl

@[simp] theorem regSlot_val (x : Nibble) : (regSlot x).val = x.toNat := rfl

/-- Read after write, the same register and the others. -/
@[simp] theorem State.reg_setReg (s : State) (x y : Nibble) (b : Byte) :
    (s.setReg x b).reg y = if y = x then b else s.reg y := by
  have h : x.toNat = y.toNat ↔ y = x := ⟨fun e => BitVec.eq_of_toNat_eq e.symm, fun e => e ▸ rfl⟩
  simp [State.reg, Vector.getElem_set, h]

theorem State.reg_setReg_self (s : State) (x : Nibble) (b : Byte) : (s.setReg x b).reg x = b := by simp

/-- Two states with the same registers have the same register file. -/
theorem State.v_ext {s t : State} (h : ∀ z, t.reg z = s.reg z) : t.v = s.v := by
  apply Vector.ext
  intro k hk
  have := h (BitVec.ofNat 4 k)
  have hk' : (BitVec.ofNat 4 k).toNat = k := by simp; omega
  simpa [State.reg, hk'] using this

/-- Everything a flag writer leaves in the registers (R101): VF holds the flag, X the result unless X is VF. -/
@[simp] theorem State.reg_setRegFlag (s : State) (x y : Nibble) (b : Byte) (f : Bool) :
    (s.setRegFlag x b f).reg y = if y = regVF then flagByte f else if y = x then b else s.reg y := by
  simp [State.setRegFlag]

/-- A flag writer touches nothing but the registers. -/
theorem State.setRegFlag_frame (s : State) (x : Nibble) (b : Byte) (f : Bool) :
    s.setRegFlag x b f = { s with v := (s.setRegFlag x b f).v } := rfl

/-- A run of register writes touches nothing but the registers. -/
theorem State.setRegs_frame (s : State) (k : Nat) (bs : List Byte) :
    s.setRegs k bs = { s with v := (s.setRegs k bs).v } := by
  induction bs generalizing s k with
  | nil => rfl
  | cons b bs ih =>
    show (s.setReg (BitVec.ofNat 4 k) b).setRegs (k + 1) bs = _
    rw [ih]; rfl

/-- A run of register writes from `k` on: register `z` gets the byte at its place, the others keep their value. -/
theorem State.reg_setRegs (s : State) (k : Nat) (bs : List Byte) (hk : k + bs.length ≤ 16) (z : Nibble) :
    (s.setRegs k bs).reg z =
      if k ≤ z.toNat ∧ z.toNat < k + bs.length then bs.getD (z.toNat - k) 0#8 else s.reg z := by
  induction bs generalizing s k with
  | nil =>
    have h : ¬ (k ≤ z.toNat ∧ z.toNat < k + ([] : List Byte).length) := by simp
    rw [if_neg h]; rfl
  | cons b bs ih =>
    simp only [List.length_cons] at hk
    have hz : z = BitVec.ofNat 4 k ↔ z.toNat = k := by
      rw [← BitVec.toNat_inj]; simp; omega
    show ((s.setReg (BitVec.ofNat 4 k) b).setRegs (k + 1) bs).reg z = _
    rw [ih _ _ (by omega), State.reg_setReg]
    simp only [hz, List.length_cons]
    by_cases h1 : z.toNat = k
    · have h2 : ¬ (k + 1 ≤ z.toNat ∧ z.toNat < k + 1 + bs.length) := by omega
      have h3 : k ≤ z.toNat ∧ z.toNat < k + (bs.length + 1) := by omega
      rw [if_neg h2, if_pos h1, if_pos h3, h1]; simp
    · by_cases h2 : k + 1 ≤ z.toNat ∧ z.toNat < k + 1 + bs.length
      · have h3 : k ≤ z.toNat ∧ z.toNat < k + (bs.length + 1) := by omega
        rw [if_pos h2, if_pos h3]
        obtain ⟨n, hn⟩ : ∃ n, z.toNat - k = n + 1 := ⟨z.toNat - k - 1, by omega⟩
        rw [hn, show z.toNat - (k + 1) = n by omega, List.getD_cons_succ]
      · have h3 : ¬ (k ≤ z.toNat ∧ z.toNat < k + (bs.length + 1)) := by omega
        rw [if_neg h2, if_neg h1, if_neg h3]

@[simp] theorem State.length_regsFrom (s : State) (k n : Nat) : (s.regsFrom k n).length = n := by
  induction n generalizing k with
  | zero => rfl
  | succ n ih => simp [State.regsFrom, ih]

/-- The j-th of a run of registers. -/
theorem State.getD_regsFrom (s : State) (k n j : Nat) (h : j < n) :
    (s.regsFrom k n).getD j 0#8 = s.reg (BitVec.ofNat 4 (k + j)) := by
  induction n generalizing k j with
  | zero => omega
  | succ n ih =>
    cases j with
    | zero => rfl
    | succ j =>
      rw [State.regsFrom, List.getD_cons_succ, ih (k + 1) j (by omega)]
      congr 2; omega

/-- Reading the key latch after a press. -/
@[simp] theorem State.key_latchKey (s : State) (k z : Nibble) : (s.latchKey k).key z = if z = k then true else s.key z := by
  have h : k.toNat = z.toNat ↔ z = k := ⟨fun e => BitVec.eq_of_toNat_eq e.symm, fun e => e ▸ rfl⟩
  simp [State.key, State.latchKey, Vector.getElem_set, h]

/-- What the flag of R100 is as a register value: 0 or 1. -/
theorem flagByte_zero_or_one (f : Bool) : flagByte f = 0#8 ∨ flagByte f = 1#8 := by cases f <;> simp [flagByte]

end Sys2Proof.Machine
end

