-- ==== Sys2Proof/Laws/Ops.lean ====
section
/-! SUPPORT. One lemma per shared operation of the machine, saying once everything it can do: the call stack, the range check, the
key operand, the sprite cell, and the core's turn. -/

namespace Sys2Proof.Machine

/-! ### The call stack (R17, R18) -/

/-- Push succeeds below 16 entries: the slot at SP gets the value, SP grows by one, nothing else changes. -/
theorem State.push_of_lt {s : State} {t : Pc} (h : s.sp.val < 16) :
    s.push t = some { s with stk := s.stk.set s.sp.val t h, sp := ⟨s.sp.val + 1, Nat.succ_lt_succ h⟩ } := by
  simp [State.push, h]

theorem State.push_full {s : State} {t : Pc} (h : s.sp.val = 16) : s.push t = none := by simp [State.push, h]

/-- Everything a push can do. -/
theorem State.push_cases (s : State) (t : Pc) :
    (s.sp.val = 16 ∧ s.push t = none) ∨
    ∃ h : s.sp.val < 16,
      s.push t = some { s with stk := s.stk.set s.sp.val t h, sp := ⟨s.sp.val + 1, Nat.succ_lt_succ h⟩ } := by
  by_cases h : s.sp.val < 16
  · exact .inr ⟨h, State.push_of_lt h⟩
  · exact .inl ⟨by have := s.sp.isLt; omega, State.push_full (by have := s.sp.isLt; omega)⟩

/-- Everything a pop can do: the newest entry, SP one less, the slot unchanged. -/
theorem State.pop_cases (s : State) :
    (s.sp.val = 0 ∧ s.pop = none) ∨
    ∃ (n : Nat) (hn : n < 16), s.sp.val = n + 1 ∧
      s.pop = some (s.stk[n], { s with sp := ⟨n, Nat.lt_succ_of_lt hn⟩ }) := by
  unfold State.pop
  split
  · exact .inl ⟨‹_›, rfl⟩
  · rename_i n h
    have hn : n < 16 := by have := s.sp.isLt; omega
    exact .inr ⟨n, hn, h, rfl⟩

/-! ### Memory through the state (R29, R41, R48) -/

/-- Everything a store does to byte reads: the bytes lie at ascending addresses, every other address reads as before. -/
theorem State.readByte_storeBytes {s : State} (hm : s.mem.wf s.font = true) {a : Nat} {vs : List Byte}
    (h : a + vs.length ≤ 4096) (b : Nat) :
    (s.storeBytes a vs).readByte b = if a ≤ b ∧ b < a + vs.length then vs.getD (b - a) 0#8 else s.readByte b :=
  Memory.read_writeBytes hm h b

/-- A store inside the address space keeps the canonical form. -/
theorem State.wf_storeBytes {s : State} (hm : s.mem.wf s.font = true) {a : Nat} {vs : List Byte}
    (h : a + vs.length ≤ 4096) : (s.storeBytes a vs).mem.wf (s.storeBytes a vs).font = true := Memory.wf_writeBytes hm h

@[simp] theorem State.length_readBytes (s : State) (a n : Nat) : (s.readBytes a n).length = n :=
  Memory.length_readBytes s.mem a n

/-- The j-th byte of a run of reads. -/
theorem State.getD_readBytes (s : State) (a n j : Nat) (h : j < n) :
    (s.readBytes a n).getD j 0#8 = s.readByte (a + j) := Memory.getD_readBytes s.mem a n j h

/-- Where nothing is listed, memory reads as FONT and zeros (R46). -/
theorem State.readByte_of_mem_nil {s : State} (h : s.mem = []) (a : Nat) : s.readByte a = resetByte s.font a := by
  simp [State.readByte, h]

theorem resetByte_of_lt {f : Font} {a : Nat} (h : a < 80) : resetByte f a = f[a] := by simp [resetByte, h]

theorem resetByte_of_le {f : Font} {a : Nat} (h : 80 ≤ a) : resetByte f a = 0#8 := by
  simp [resetByte, Nat.not_lt.mpr h]

/-! ### Ranges and keys (R44, R140) -/

/-- Everything an I-relative access can do: its effect, or MemoryOutOfBounds. -/
theorem State.withRange_cases (s : State) (n : Nat) (e : State) :
    (s.i.toNat + n ≤ 4096 ∧ s.withRange n e = e) ∨
    (4096 < s.i.toNat + n ∧ s.withRange n e = s.raise .memoryOutOfBounds) := by
  by_cases h : s.i.toNat + n ≤ 4096
  · exact .inl ⟨h, by simp [State.withRange, rangeLegal, h]⟩
  · exact .inr ⟨by omega, by simp [State.withRange, rangeLegal, h]⟩

theorem State.withRange_of_le {s : State} {n : Nat} {e : State} (h : s.i.toNat + n ≤ 4096) : s.withRange n e = e := by
  simp [State.withRange, rangeLegal, h]

theorem State.withRange_of_lt {s : State} {n : Nat} {e : State} (h : 4096 < s.i.toNat + n) :
    s.withRange n e = s.raise .memoryOutOfBounds := by
  simp [State.withRange, rangeLegal, Nat.not_le.mpr h]

theorem keyOperand_of_le {b : Byte} (h : b.toNat ≤ 15) : keyOperand b = some (b.setWidth 4) := by simp [keyOperand, h]

theorem keyOperand_of_gt {b : Byte} (h : 15 < b.toNat) : keyOperand b = none := by
  simp [keyOperand, Nat.not_le.mpr h]

/-! ### The display (R131, R132) -/

/-- Reading a cell after writing one. -/
theorem Display.cell_setCell (d : Display) (y y' : Fin 32) (x x' : Fin 64) (b : Bool) :
    (d.setCell y x b).cell y' x' = if y' = y ∧ x' = x then b else d.cell y' x' := by
  have hy : y.val = y'.val ↔ y' = y := by rw [Fin.ext_iff]; exact eq_comm
  have hx : x.val = x'.val ↔ x' = x := by rw [Fin.ext_iff]; exact eq_comm
  by_cases h1 : y' = y
  · subst h1
    by_cases h2 : x' = x
    · subst h2; simp [Display.cell, Display.setCell]
    · simp [Display.cell, Display.setCell, hx, h2]
  · simp [Display.cell, Display.setCell, hy, h1]

@[simp] theorem Display.cell_clear (y : Fin 32) (x : Fin 64) : Display.clear.cell y x = false := by
  simp [Display.cell, Display.clear]

/-- Displays with the same cells are equal data. -/
theorem Display.ext_cell {d e : Display} (h : ∀ y x, d.cell y x = e.cell y x) : d = e := by
  apply Vector.ext; intro y hy
  apply Vector.ext; intro x hx
  exact h ⟨y, hy⟩ ⟨x, hx⟩

/-- Everything one sprite cell does: its target is XORed, no other cell changes, and the collision is noted (R132). -/
theorem drawCell_spec (b : Byte) (x0 : Nat) (y : Fin 32) (acc : Display × Bool) (c : Nat) :
    (∀ y' x', (drawCell b x0 y acc c).1.cell y' x' =
      if y' = y ∧ x' = spriteCol x0 c then (acc.1.cell y' x' ^^ spriteBit b c) else acc.1.cell y' x') ∧
    (drawCell b x0 y acc c).2 = (acc.2 || (acc.1.cell y (spriteCol x0 c) && spriteBit b c)) := by
  refine ⟨fun y' x' => ?_, rfl⟩
  simp only [drawCell, Display.cell_setCell]
  split
  · rename_i h; rw [h.1, h.2]
  · rfl

/-! ### The core's turn (R63) -/

theorem State.fetchAndRun_cases (s : State) :
    (0xFFE < s.pc.toNat ∧ s.fetchAndRun = .next (s.raise .memoryOutOfBounds)) ∨
    (s.pc.toNat ≤ 0xFFE ∧ (∃ e, decodeWord s.fetch = .error e) ∧ s.fetchAndRun = .next (s.raise .invalidInstruction)) ∨
    (s.pc.toNat ≤ 0xFFE ∧ ∃ i, decodeWord s.fetch = .ok i ∧ s.fetchAndRun = exec i s) := by
  by_cases h : s.pc.toNat ≤ 0xFFE
  · right
    have hf : s.fetchAndRun = s.runWord s.fetch := by simp [State.fetchAndRun, fetchLegal, h]
    cases hd : decodeWord s.fetch with
    | error e => exact .inl ⟨h, ⟨e, rfl⟩, by rw [hf, State.runWord, hd]⟩
    | ok i => exact .inr ⟨h, i, rfl, by rw [hf, State.runWord, hd]⟩
  · exact .inl ⟨by omega, by simp [State.fetchAndRun, fetchLegal, h]⟩

/-- Everything a step can do. -/
theorem step_cases (s : State) :
    (∃ e rest, s.schedule = .host e :: rest ∧ step s = .next (hostEvent e { s with schedule := rest }).1) ∨
    (∃ rest, s.schedule = .core :: rest ∧ s.run ≠ .running ∧ step s = .next { s with schedule := rest }) ∨
    (∃ rest, s.schedule = .core :: rest ∧ s.run = .running ∧
      step s = State.fetchAndRun { s with schedule := rest }) ∨
    (s.schedule = [] ∧ s.run = .running ∧ step s = s.fetchAndRun) ∨
    (s.schedule = [] ∧ s.run = .idle ∧ step s = .fault .coreIdle) ∨
    (s.schedule = [] ∧ s.run = .waitKey ∧ step s = .fault .coreWaiting) := by
  cases hs : s.schedule with
  | nil => cases hr : s.run <;> simp [step, State.takeTurn, State.coreTurn, hs, hr]
  | cons t rest =>
    cases t with
    | host e => exact .inl ⟨e, rest, rfl, by simp [step, State.takeTurn, hs]⟩
    | core =>
      by_cases hr : s.run = .running
      · exact .inr (.inr (.inl ⟨rest, rfl, hr, by simp [step, State.takeTurn, State.coreTurn, hs, hr]⟩))
      · exact .inr (.inl ⟨rest, rfl, hr, by simp [step, State.takeTurn, hs, hr]⟩)

end Sys2Proof.Machine
end

