-- ==== Sys2Proof/Laws/Exec.lean ====
section
/-! SUPPORT. For each instruction that may stop, everything a next state of it can be; and what a fetch reads from a given memory. The
other instructions have one next state, by unfolding `exec`. -/

namespace Sys2Proof.Machine

/-- Everything `00EE` can do. -/
theorem exec_ret_cases {s t : State} (h : exec .ret s = .next t) :
    (s.sp.val = 0 ∧ t = s.raise .stackUnderflow) ∨
    ∃ (n : Nat) (hn : n < 16), s.sp.val = n + 1 ∧
      t = ({ s with sp := ⟨n, Nat.lt_succ_of_lt hn⟩ } : State).setPc (s.stk[n]'hn) := by
  rcases s.pop_cases with ⟨h0, h1⟩ | ⟨n, hn, h0, h1⟩
  · simp only [exec, execRet, h1] at h; cases h; exact .inl ⟨h0, rfl⟩
  · simp only [exec, execRet, h1] at h; cases h; exact .inr ⟨n, hn, h0, rfl⟩

/-- Everything `2NNN` can do. -/
theorem exec_call_cases {s t : State} {nnn : Addr} (h : exec (.call nnn) s = .next t) :
    (s.sp.val = 16 ∧ t = s.raise .stackOverflow) ∨
    ∃ hn : s.sp.val < 16, t = ({ s with
      stk := s.stk.set s.sp.val s.npc hn, sp := ⟨s.sp.val + 1, Nat.succ_lt_succ hn⟩ } : State).setPc (targetNNN nnn) := by
  rcases s.push_cases s.npc with ⟨h0, h1⟩ | ⟨hn, h1⟩
  · simp only [exec, execCall, h1] at h; cases h; exact .inl ⟨h0, rfl⟩
  · simp only [exec, execCall, h1] at h; cases h; exact .inr ⟨hn, rfl⟩

/-- Everything `EX9E` can do. -/
theorem exec_skpVx_cases {s t : State} {x : Nibble} (h : exec (.skpVx x) s = .next t) :
    (keyOperand (s.reg x) = none ∧ t = s.raise .invalidKeyIndex) ∨
    ∃ k, keyOperand (s.reg x) = some k ∧ t = s.skipIf (s.key k) := by
  simp only [exec, execSkpVx] at h
  split at h <;> cases h
  · exact .inr ⟨_, ‹_›, rfl⟩
  · exact .inl ⟨‹_›, rfl⟩

/-- Everything `EXA1` can do. -/
theorem exec_sknpVx_cases {s t : State} {x : Nibble} (h : exec (.sknpVx x) s = .next t) :
    (keyOperand (s.reg x) = none ∧ t = s.raise .invalidKeyIndex) ∨
    ∃ k, keyOperand (s.reg x) = some k ∧ t = s.skipIf (!s.key k) := by
  simp only [exec, execSknpVx] at h
  split at h <;> cases h
  · exact .inr ⟨_, ‹_›, rfl⟩
  · exact .inl ⟨‹_›, rfl⟩

/-- Everything `FX33` can do. -/
theorem exec_ldBVx_cases {s t : State} {x : Nibble} (h : exec (.ldBVx x) s = .next t) :
    (4096 < s.i.toNat + 3 ∧ t = s.raise .memoryOutOfBounds) ∨
    (s.i.toNat + 3 ≤ 4096 ∧ t = (s.storeBytes s.i.toNat (bcdDigits (s.reg x))).advance) := by
  simp only [exec, execLdBVx] at h
  rcases s.withRange_cases 3 (s.storeBytes s.i.toNat (bcdDigits (s.reg x))).advance with
      ⟨h0, h1⟩ | ⟨h0, h1⟩ <;> rw [h1] at h <;> cases h
  · exact .inr ⟨h0, rfl⟩
  · exact .inl ⟨h0, rfl⟩

/-- Everything `FX55` can do. -/
theorem exec_ldMemVx_cases {s t : State} {x : Nibble} (h : exec (.ldMemVx x) s = .next t) :
    (4096 < s.i.toNat + (x.toNat + 1) ∧ t = s.raise .memoryOutOfBounds) ∨
    (s.i.toNat + (x.toNat + 1) ≤ 4096 ∧
      t = (s.storeBytes s.i.toNat (s.regsFrom 0 (x.toNat + 1))).advance) := by
  simp only [exec, execLdMemVx] at h
  rcases s.withRange_cases (x.toNat + 1) (s.storeBytes s.i.toNat (s.regsFrom 0 (x.toNat + 1))).advance with
      ⟨h0, h1⟩ | ⟨h0, h1⟩ <;> rw [h1] at h <;> cases h
  · exact .inr ⟨h0, rfl⟩
  · exact .inl ⟨h0, rfl⟩

/-- Everything `FX65` can do. -/
theorem exec_ldVxMem_cases {s t : State} {x : Nibble} (h : exec (.ldVxMem x) s = .next t) :
    (4096 < s.i.toNat + (x.toNat + 1) ∧ t = s.raise .memoryOutOfBounds) ∨
    (s.i.toNat + (x.toNat + 1) ≤ 4096 ∧
      t = ({ s with v := (s.setRegs 0 (s.readBytes s.i.toNat (x.toNat + 1))).v } : State).advance) := by
  simp only [exec, execLdVxMem] at h
  rcases s.withRange_cases (x.toNat + 1) (s.setRegs 0 (s.readBytes s.i.toNat (x.toNat + 1))).advance with
      ⟨h0, h1⟩ | ⟨h0, h1⟩ <;> rw [h1] at h <;> cases h
  · exact .inr ⟨h0, by rw [State.setRegs_frame]⟩
  · exact .inl ⟨h0, rfl⟩

/-- Everything `DXYN` can do: stop, or draw the sprite and leave the collision in VF. -/
theorem exec_drwVxVyN_cases {s t : State} {x y n : Nibble} (h : exec (.drwVxVyN x y n) s = .next t) :
    (4096 < s.i.toNat + n.toNat ∧ t = s.raise .memoryOutOfBounds) ∨ (s.i.toNat + n.toNat ≤ 4096 ∧ ∃ drawn : Display × Bool,
      drawn = drawSprite s.readByte s.i.toNat (s.reg x).toNat (s.reg y).toNat n.toNat s.display ∧
      t = ((s.setDisplay drawn.1).setReg regVF (flagByte drawn.2)).advance) := by
  simp only [exec, execDrwVxVyN, State.withRange] at h
  split at h <;> cases h
  · rename_i hr; exact .inr ⟨by simpa [rangeLegal] using hr, _, rfl, rfl⟩
  · rename_i hr; exact .inl ⟨by simpa [rangeLegal] using hr, rfl⟩

/-- Where memory reads as `f`, words are fetched from `f`. -/
theorem fetchesFrom_of_read {t : State} {f : Nat → Byte} (h : ∀ a, t.readByte a = f a) : FetchesFrom t f := by
  intro u hm hr hs hp
  have hw : u.fetch = f u.pc.toNat ++ f (u.pc.toNat + 1) := by simp only [State.fetch, State.readWord, hm _, h]
  have hc : step u = u.fetchAndRun := by simp [step, State.takeTurn, hs, State.coreTurn, hr]
  refine ⟨fun j hj => ?_, fun e he => ⟨_, ?_, rfl, fun _ => rfl⟩⟩
  · simp [hc, State.fetchAndRun, fetchLegal, hp, State.runWord, hw, hj]
  · simp [hc, State.fetchAndRun, fetchLegal, hp, State.runWord, hw, he]; rfl

end Sys2Proof.Machine
end

