-- ==== Sys2Proof/Laws/PerInstr.lean ====
section
/-! SUPPORT. Per instruction, as syntax: the word of an instruction lies in its row of the opcode map (30_encoding.md R65), that
is, under the row's mask it is the row's match. -/

namespace Sys2Proof.Laws

theorem wordNNN_and (a b : Nibble) (p q : Addr) : wordNNN a p &&& wordNNN b q = wordNNN (a &&& b) (p &&& q) := by
  apply BitVec.eq_of_getLsbD_eq; intro i _
  simp only [BitVec.getLsbD_and, getLsbD_wordNNN]; split <;> simp

theorem wordXNN_and (a b x y : Nibble) (p q : Byte) :
    wordXNN a x p &&& wordXNN b y q = wordXNN (a &&& b) (x &&& y) (p &&& q) := by
  apply BitVec.eq_of_getLsbD_eq; intro i _
  simp only [BitVec.getLsbD_and, getLsbD_wordXNN]; repeat' split
  all_goals simp

theorem wordXYN_and (a b c d e f g h : Nibble) :
    wordXYN a b c d &&& wordXYN e f g h = wordXYN (a &&& e) (b &&& f) (c &&& g) (d &&& h) := by
  apply BitVec.eq_of_getLsbD_eq; intro i _
  simp only [BitVec.getLsbD_and, getLsbD_wordXYN]; repeat' split
  all_goals simp

/-- The mask of a row whose only fixed field is `f1`. -/
theorem mask_f1_NNN (a : Nibble) (nnn : Addr) : wordNNN a nnn &&& 0xF000#16 = wordNNN a 0#12 := by
  rw [show (0xF000#16 : Word16) = wordNNN 0xF#4 0#12 from rfl, wordNNN_and, BitVec.and_zero,
    show (0xF#4 : Nibble) = BitVec.allOnes 4 from rfl, BitVec.and_allOnes]

theorem mask_f1_XNN (a x : Nibble) (nn : Byte) : wordXNN a x nn &&& 0xF000#16 = wordXNN a 0#4 0#8 := by
  rw [show (0xF000#16 : Word16) = wordXNN 0xF#4 0#4 0#8 from rfl, wordXNN_and, BitVec.and_zero, BitVec.and_zero,
    show (0xF#4 : Nibble) = BitVec.allOnes 4 from rfl, BitVec.and_allOnes]

theorem mask_f1_XYN (a x y n : Nibble) : wordXYN a x y n &&& 0xF000#16 = wordXYN a 0#4 0#4 0#4 := by
  rw [show (0xF000#16 : Word16) = wordXYN 0xF#4 0#4 0#4 0#4 from rfl, wordXYN_and, BitVec.and_zero, BitVec.and_zero,
    BitVec.and_zero, show (0xF#4 : Nibble) = BitVec.allOnes 4 from rfl, BitVec.and_allOnes]

/-- The mask of a row whose fixed fields are `f1` and `f4`. -/
theorem mask_f1_f4 (a x y n : Nibble) : wordXYN a x y n &&& 0xF00F#16 = wordXYN a 0#4 0#4 n := by
  rw [show (0xF00F#16 : Word16) = wordXYN 0xF#4 0#4 0#4 0xF#4 from rfl, wordXYN_and, BitVec.and_zero, BitVec.and_zero,
    show (0xF#4 : Nibble) = BitVec.allOnes 4 from rfl, BitVec.and_allOnes, BitVec.and_allOnes]

/-- The mask of a row whose fixed fields are `f1` and the low byte. -/
theorem mask_f1_NN (a x : Nibble) (nn : Byte) : wordXNN a x nn &&& 0xF0FF#16 = wordXNN a 0#4 nn := by
  rw [show (0xF0FF#16 : Word16) = wordXNN 0xF#4 0#4 0xFF#8 from rfl, wordXNN_and, BitVec.and_zero,
    show (0xF#4 : Nibble) = BitVec.allOnes 4 from rfl, BitVec.and_allOnes,
    show (0xFF#8 : Byte) = BitVec.allOnes 8 from rfl, BitVec.and_allOnes]

/-- The row of R65 an instruction belongs to, as its match and its mask. -/
def rowOf : Instr → Word16 × Word16
  | .cls => (0x00E0#16, 0xFFFF#16)
  | .ret => (0x00EE#16, 0xFFFF#16)
  | .sys _ => (0x0000#16, 0xF000#16)
  | .jp _ => (0x1000#16, 0xF000#16)
  | .call _ => (0x2000#16, 0xF000#16)
  | .seVxNn _ _ => (0x3000#16, 0xF000#16)
  | .sneVxNn _ _ => (0x4000#16, 0xF000#16)
  | .seVxVy _ _ => (0x5000#16, 0xF00F#16)
  | .ldVxNn _ _ => (0x6000#16, 0xF000#16)
  | .addVxNn _ _ => (0x7000#16, 0xF000#16)
  | .ldVxVy _ _ => (0x8000#16, 0xF00F#16)
  | .orVxVy _ _ => (0x8001#16, 0xF00F#16)
  | .andVxVy _ _ => (0x8002#16, 0xF00F#16)
  | .xorVxVy _ _ => (0x8003#16, 0xF00F#16)
  | .addVxVy _ _ => (0x8004#16, 0xF00F#16)
  | .subVxVy _ _ => (0x8005#16, 0xF00F#16)
  | .shrVx _ _ => (0x8006#16, 0xF00F#16)
  | .subnVxVy _ _ => (0x8007#16, 0xF00F#16)
  | .shlVx _ _ => (0x800E#16, 0xF00F#16)
  | .sneVxVy _ _ => (0x9000#16, 0xF00F#16)
  | .ldINnn _ => (0xA000#16, 0xF000#16)
  | .jpV0Nnn _ => (0xB000#16, 0xF000#16)
  | .rndVxNn _ _ => (0xC000#16, 0xF000#16)
  | .drwVxVyN _ _ _ => (0xD000#16, 0xF000#16)
  | .skpVx _ => (0xE09E#16, 0xF0FF#16)
  | .sknpVx _ => (0xE0A1#16, 0xF0FF#16)
  | .ldVxDt _ => (0xF007#16, 0xF0FF#16)
  | .ldVxK _ => (0xF00A#16, 0xF0FF#16)
  | .ldDtVx _ => (0xF015#16, 0xF0FF#16)
  | .ldStVx _ => (0xF018#16, 0xF0FF#16)
  | .addIVx _ => (0xF01E#16, 0xF0FF#16)
  | .ldFVx _ => (0xF029#16, 0xF0FF#16)
  | .ldBVx _ => (0xF033#16, 0xF0FF#16)
  | .ldMemVx _ => (0xF055#16, 0xF0FF#16)
  | .ldVxMem _ => (0xF065#16, 0xF0FF#16)

/-- The word lies in its row. -/
def TableRow.Statement (i : Instr) : Prop := encodeWord i &&& (rowOf i).2 = (rowOf i).1

theorem TableRow.cls : TableRow.Statement (.cls) := by rfl
theorem TableRow.ret : TableRow.Statement (.ret) := by rfl
theorem TableRow.sys (nnn : Addr) : TableRow.Statement (.sys nnn) := (mask_f1_NNN _ _).trans rfl
theorem TableRow.jp (nnn : Addr) : TableRow.Statement (.jp nnn) := (mask_f1_NNN _ _).trans rfl
theorem TableRow.call (nnn : Addr) : TableRow.Statement (.call nnn) := (mask_f1_NNN _ _).trans rfl
theorem TableRow.seVxNn (x : Nibble) (nn : Byte) : TableRow.Statement (.seVxNn x nn) := (mask_f1_XNN _ _ _).trans rfl
theorem TableRow.sneVxNn (x : Nibble) (nn : Byte) : TableRow.Statement (.sneVxNn x nn) := (mask_f1_XNN _ _ _).trans rfl
theorem TableRow.seVxVy (x y : Nibble) : TableRow.Statement (.seVxVy x y) := (mask_f1_f4 _ _ _ _).trans rfl
theorem TableRow.ldVxNn (x : Nibble) (nn : Byte) : TableRow.Statement (.ldVxNn x nn) := (mask_f1_XNN _ _ _).trans rfl
theorem TableRow.addVxNn (x : Nibble) (nn : Byte) : TableRow.Statement (.addVxNn x nn) := (mask_f1_XNN _ _ _).trans rfl
theorem TableRow.ldVxVy (x y : Nibble) : TableRow.Statement (.ldVxVy x y) := (mask_f1_f4 _ _ _ _).trans rfl
theorem TableRow.orVxVy (x y : Nibble) : TableRow.Statement (.orVxVy x y) := (mask_f1_f4 _ _ _ _).trans rfl
theorem TableRow.andVxVy (x y : Nibble) : TableRow.Statement (.andVxVy x y) := (mask_f1_f4 _ _ _ _).trans rfl
theorem TableRow.xorVxVy (x y : Nibble) : TableRow.Statement (.xorVxVy x y) := (mask_f1_f4 _ _ _ _).trans rfl
theorem TableRow.addVxVy (x y : Nibble) : TableRow.Statement (.addVxVy x y) := (mask_f1_f4 _ _ _ _).trans rfl
theorem TableRow.subVxVy (x y : Nibble) : TableRow.Statement (.subVxVy x y) := (mask_f1_f4 _ _ _ _).trans rfl
theorem TableRow.shrVx (x y : Nibble) : TableRow.Statement (.shrVx x y) := (mask_f1_f4 _ _ _ _).trans rfl
theorem TableRow.subnVxVy (x y : Nibble) : TableRow.Statement (.subnVxVy x y) := (mask_f1_f4 _ _ _ _).trans rfl
theorem TableRow.shlVx (x y : Nibble) : TableRow.Statement (.shlVx x y) := (mask_f1_f4 _ _ _ _).trans rfl
theorem TableRow.sneVxVy (x y : Nibble) : TableRow.Statement (.sneVxVy x y) := (mask_f1_f4 _ _ _ _).trans rfl
theorem TableRow.ldINnn (nnn : Addr) : TableRow.Statement (.ldINnn nnn) := (mask_f1_NNN _ _).trans rfl
theorem TableRow.jpV0Nnn (nnn : Addr) : TableRow.Statement (.jpV0Nnn nnn) := (mask_f1_NNN _ _).trans rfl
theorem TableRow.rndVxNn (x : Nibble) (nn : Byte) : TableRow.Statement (.rndVxNn x nn) := (mask_f1_XNN _ _ _).trans rfl
theorem TableRow.drwVxVyN (x y n : Nibble) : TableRow.Statement (.drwVxVyN x y n) := (mask_f1_XYN _ _ _ _).trans rfl
theorem TableRow.skpVx (x : Nibble) : TableRow.Statement (.skpVx x) := (mask_f1_NN _ _ _).trans rfl
theorem TableRow.sknpVx (x : Nibble) : TableRow.Statement (.sknpVx x) := (mask_f1_NN _ _ _).trans rfl
theorem TableRow.ldVxDt (x : Nibble) : TableRow.Statement (.ldVxDt x) := (mask_f1_NN _ _ _).trans rfl
theorem TableRow.ldVxK (x : Nibble) : TableRow.Statement (.ldVxK x) := (mask_f1_NN _ _ _).trans rfl
theorem TableRow.ldDtVx (x : Nibble) : TableRow.Statement (.ldDtVx x) := (mask_f1_NN _ _ _).trans rfl
theorem TableRow.ldStVx (x : Nibble) : TableRow.Statement (.ldStVx x) := (mask_f1_NN _ _ _).trans rfl
theorem TableRow.addIVx (x : Nibble) : TableRow.Statement (.addIVx x) := (mask_f1_NN _ _ _).trans rfl
theorem TableRow.ldFVx (x : Nibble) : TableRow.Statement (.ldFVx x) := (mask_f1_NN _ _ _).trans rfl
theorem TableRow.ldBVx (x : Nibble) : TableRow.Statement (.ldBVx x) := (mask_f1_NN _ _ _).trans rfl
theorem TableRow.ldMemVx (x : Nibble) : TableRow.Statement (.ldMemVx x) := (mask_f1_NN _ _ _).trans rfl
theorem TableRow.ldVxMem (x : Nibble) : TableRow.Statement (.ldVxMem x) := (mask_f1_NN _ _ _).trans rfl

end Sys2Proof.Laws
end

