-- ==== Sys2Proof/Tests/Slice0.lean ====
section
/-! SUPPORT. Tests, each on one step or one event. Expected values are those of 95_test_vectors.md (the table or the rule is named at
each group) or of the rule's own example. -/

namespace Sys2Proof.Tests
open Sys2Proof.Machine

/-- A machine about to fetch `w` at 0x200, everything else as after reset (95_test_vectors.md, conventions). -/
def ready (w : Nat) : State := State.reset.withFetchWord 16 w

/-- One step, and a look at the next state. -/
def look {α : Type} (s : State) (f : State → α) : Option α :=
  match step s with
  | .next t => some (f t)
  | .fault _ => none
  | .refused _ => none

/-- PC as a number, for the look. -/
def pcOf (s : State) : Nat := s.pc.toNat

/-- ERR as its code and address (R150). -/
def errOf (s : State) : Nat × Nat := (s.err.kind.code, s.err.addr.toNat)

/-! ## WellFormed: one ill-formed term for each check (R67, R82) -/

theorem test_wf_sys_low_byte_zero : (Instr.sys 0x300#12).wf = false := by decide
theorem test_wf_sys_is_not_cls : (Instr.sys 0x0E0#12).wf = false := by decide
theorem test_wf_sys_is_not_ret : (Instr.sys 0x0EE#12).wf = false := by decide
theorem test_wf_sys_legacy : (Instr.sys 0x1E0#12).wf = true := by decide

/-! ## Decode: every row, words written out from R61 and R65 -/

theorem test_decode_flow :
    decodeTableWord 16 0x00EE = some .ret ∧ decodeTableWord 16 0x0123 = some (.sys 0x123#12) ∧
    decodeTableWord 16 0x1234 = some (.jp 0x234#12) ∧ decodeTableWord 16 0x2ABC = some (.call 0xABC#12) ∧
    decodeTableWord 16 0x3A42 = some (.seVxNn 0xA#4 0x42#8) ∧ decodeTableWord 16 0x4A42 = some (.sneVxNn 0xA#4 0x42#8) ∧
    decodeTableWord 16 0x5120 = some (.seVxVy 1#4 2#4) ∧ decodeTableWord 16 0x9AB0 = some (.sneVxVy 0xA#4 0xB#4) ∧
    decodeTableWord 16 0xB300 = some (.jpV0Nnn 0x300#12) := by decide

theorem test_decode_alu :
    decodeTableWord 16 0x6A2C = some (.ldVxNn 0xA#4 0x2C#8) ∧ decodeTableWord 16 0x7301 = some (.addVxNn 3#4 1#8) ∧
    decodeTableWord 16 0x8EF0 = some (.ldVxVy 0xE#4 0xF#4) ∧ decodeTableWord 16 0x8011 = some (.orVxVy 0#4 1#4) ∧
    decodeTableWord 16 0x8012 = some (.andVxVy 0#4 1#4) ∧ decodeTableWord 16 0x8013 = some (.xorVxVy 0#4 1#4) ∧
    decodeTableWord 16 0x8124 = some (.addVxVy 1#4 2#4) ∧ decodeTableWord 16 0x8125 = some (.subVxVy 1#4 2#4) ∧
    decodeTableWord 16 0x81F6 = some (.shrVx 1#4 0xF#4) ∧ decodeTableWord 16 0x8017 = some (.subnVxVy 0#4 1#4) ∧
    decodeTableWord 16 0x81AE = some (.shlVx 1#4 0xA#4) ∧ decodeTableWord 16 0xC10F = some (.rndVxNn 1#4 0x0F#8) := by
  decide

theorem test_decode_memory_display_io :
    decodeTableWord 16 0x00E0 = some .cls ∧ decodeTableWord 16 0xD123 = some (.drwVxVyN 1#4 2#4 3#4) ∧
    decodeTableWord 16 0xA300 = some (.ldINnn 0x300#12) ∧ decodeTableWord 16 0xF21E = some (.addIVx 2#4) ∧
    decodeTableWord 16 0xFA29 = some (.ldFVx 0xA#4) ∧ decodeTableWord 16 0xF433 = some (.ldBVx 4#4) ∧
    decodeTableWord 16 0xF255 = some (.ldMemVx 2#4) ∧ decodeTableWord 16 0xF265 = some (.ldVxMem 2#4) ∧
    decodeTableWord 16 0xE39E = some (.skpVx 3#4) ∧ decodeTableWord 16 0xE4A1 = some (.sknpVx 4#4) ∧
    decodeTableWord 16 0xF107 = some (.ldVxDt 1#4) ∧ decodeTableWord 16 0xF50A = some (.ldVxK 5#4) ∧
    decodeTableWord 16 0xF015 = some (.ldDtVx 0#4) ∧ decodeTableWord 16 0xF318 = some (.ldStVx 3#4) := by decide

/-- Vectors 2.1: words of no row. -/
theorem test_decode_invalid :
    ∀ w ∈ [0x0000, 0x0300, 0x5121, 0x512F, 0x9121, 0x8128, 0x8129, 0x812A, 0x812B, 0x812C, 0x812D, 0x812F, 0xE000, 0xE09F,
      0xE0A0, 0xE19D, 0xF000, 0xF008, 0xF00B, 0xF075, 0xF085, 0xF030, 0xF0FF], decodeTableWord 16 w = none := by decide

/-- Vectors 2.1: words of the legacy family. -/
theorem test_decode_legacy :
    ∀ w ∈ [0x0001, 0x0123, 0x0FFF, 0x00E1, 0x00ED, 0x00EF, 0x01E0, 0x03EE, 0x00FF],
      decodeTableWord 16 w = some (.sys (BitVec.ofNat 12 w)) := by decide

theorem test_encode_decode_xy : decode (encode (.shrVx 1#4 0xF#4)) = .ok (.shrVx 1#4 0xF#4, []) := by rfl

/-! ## Fetch (vectors 2.1) -/

theorem test_fetch_big_endian : look (ready 0x1234) pcOf = some 0x234 := by decide
theorem test_fetch_odd_pc :
    look { ready 0 with pc := 0x201#13, mem := [(0x201, 0x60#8), (0x202, 0x07#8)] } (fun t => (t.reg 0#4, pcOf t)) =
      some (7#8, 0x203) := by decide
theorem test_fetch_last_legal :
    look { ready 0 with pc := 0xFFE#13, mem := [(0xFFE, 0x60#8), (0xFFF, 0x07#8)] } (fun t => (t.reg 0#4, pcOf t)) =
      some (7#8, 0x1000) := by decide
theorem test_fetch_past_end :
    look { ready 0 with pc := 0xFFF#13 } (fun t => (errOf t, t.run, pcOf t)) = some ((6, 0xFFF), .idle, 0xFFF) := by decide
theorem test_invalid_word : look (ready 0x0000) (fun t => (errOf t, t.run)) = some ((1, 0x200), .idle) := by decide

/-! ## Flow (vectors 2.2) -/

theorem test_sys : look (ready 0x0123) (fun t => (errOf t, pcOf t, t.run)) = some ((2, 0x200), 0x200, .idle) := by decide
theorem test_jp_odd : look (ready 0x1203) pcOf = some 0x203 := by decide
theorem test_call_last_slot :
    look { ready 0x2ABC with sp := 15 } (fun t => (t.stk[15], t.sp, pcOf t)) = some (0x202#13, 16, 0xABC) := by decide
theorem test_call_full :
    look { ready 0x2ABC with sp := 16 } (fun t => (errOf t, t.sp, pcOf t)) = some ((3, 0x200), 16, 0x200) := by decide
theorem test_ret :
    look { ready 0x00EE with sp := 1, stk := (Vector.replicate 16 0#13).set 0 0x206#13 }
      (fun t => (pcOf t, t.sp, t.stk[0])) = some (0x206, 0, 0x206#13) := by decide
theorem test_ret_empty : look (ready 0x00EE) (fun t => (errOf t, pcOf t)) = some ((4, 0x200), 0x200) := by decide
theorem test_se_imm_taken : look ((ready 0x3A42).setReg 0xA#4 0x42#8) pcOf = some 0x204 := by decide
theorem test_se_imm_not_taken : look ((ready 0x3A42).setReg 0xA#4 0x43#8) pcOf = some 0x202 := by decide
theorem test_sne_imm_taken : look ((ready 0x4A42).setReg 0xA#4 0x43#8) pcOf = some 0x204 := by decide
theorem test_sne_imm_not_taken : look ((ready 0x4A42).setReg 0xA#4 0x42#8) pcOf = some 0x202 := by decide
theorem test_se_reg_taken : look (((ready 0x5AB0).setReg 0xA#4 9#8).setReg 0xB#4 9#8) pcOf = some 0x204 := by decide
theorem test_se_reg_not_taken : look (((ready 0x5AB0).setReg 0xA#4 9#8).setReg 0xB#4 8#8) pcOf = some 0x202 := by decide
theorem test_sne_reg_taken : look (((ready 0x9AB0).setReg 0xA#4 9#8).setReg 0xB#4 8#8) pcOf = some 0x204 := by decide
theorem test_sne_reg_not_taken : look (((ready 0x9AB0).setReg 0xA#4 9#8).setReg 0xB#4 9#8) pcOf = some 0x202 := by decide
theorem test_jp_v0_not_masked : look ((ready 0xBFFF).setReg 0#4 0xFF#8) pcOf = some 0x10FE := by decide
theorem test_jp_v0_not_vx : look ((ready 0xB500).setReg 5#4 0x77#8) pcOf = some 0x500 := by decide

/-! ## Arithmetic (vectors 2.3 and T3 to T7) -/

theorem test_ld_imm : look ((ready 0x6A2C).setReg 0xA#4 0x99#8) (fun t => (t.reg 0xA#4, pcOf t)) = some (0x2C#8, 0x202) := by decide
theorem test_add_imm_wraps_no_flag :
    look (((ready 0x7301).setReg 3#4 0xFF#8).setReg 0xF#4 1#8) (fun t => (t.reg 3#4, t.reg 0xF#4)) = some (0#8, 1#8) := by decide
theorem test_ld_reg : look ((ready 0x8EF0).setReg 0xF#4 1#8) (fun t => t.reg 0xE#4) = some 1#8 := by decide
theorem test_or_keeps_vf :
    look ((((ready 0x8011).setReg 0#4 0xF0#8).setReg 1#4 0x0F#8).setReg 0xF#4 1#8) (fun t => (t.reg 0#4, t.reg 0xF#4)) =
      some (0xFF#8, 1#8) := by decide
theorem test_and : look (((ready 0x8012).setReg 0#4 0xF3#8).setReg 1#4 0x3F#8) (fun t => t.reg 0#4) = some 0x33#8 := by decide
theorem test_xor : look (((ready 0x8013).setReg 0#4 0xFF#8).setReg 1#4 0x0F#8) (fun t => t.reg 0#4) = some 0xF0#8 := by decide
theorem test_add_carry :
    look (((ready 0x8014).setReg 0#4 0xFF#8).setReg 1#4 0xFF#8) (fun t => (t.reg 0#4, t.reg 0xF#4)) = some (0xFE#8, 1#8) := by decide
theorem test_add_vf_flag_last :
    look (((ready 0x8F14).setReg 0xF#4 0x10#8).setReg 1#4 5#8) (fun t => t.reg 0xF#4) = some 0#8 := by decide
theorem test_sub_borrow :
    look (((ready 0x8125).setReg 1#4 1#8).setReg 2#4 2#8) (fun t => (t.reg 1#4, t.reg 0xF#4)) = some (0xFF#8, 0#8) := by decide
theorem test_sub_equal :
    look (((ready 0x8015).setReg 0#4 5#8).setReg 1#4 5#8) (fun t => (t.reg 0#4, t.reg 0xF#4)) = some (0#8, 1#8) := by decide
theorem test_shr_ignores_y :
    look (((ready 0x8236).setReg 2#4 5#8).setReg 3#4 0xEE#8) (fun t => (t.reg 2#4, t.reg 3#4, t.reg 0xF#4)) =
      some (2#8, 0xEE#8, 1#8) := by decide
theorem test_subn :
    look (((ready 0x8017).setReg 0#4 1#8).setReg 1#4 3#8) (fun t => (t.reg 0#4, t.reg 0xF#4)) = some (2#8, 1#8) := by decide
theorem test_shl_flag_is_one :
    look ((ready 0x822E).setReg 2#4 0x81#8) (fun t => (t.reg 2#4, t.reg 0xF#4)) = some (2#8, 1#8) := by decide
/-- With mask 0 the result is 0 whatever the draw (R113). -/
theorem test_rnd_mask_zero (b : Byte) : (0#8 &&& b) = 0#8 ∧
    look ((ready 0xC100).setReg 1#4 9#8) (fun t => (t.draws, pcOf t)) = some (1, 0x202) := ⟨by simp, by decide⟩

/-! ## Address register and memory (vectors 2.4, T8) -/

theorem test_ld_i : look (ready 0xAFFF) (fun t => t.i) = some 0xFFF#12 := by decide
theorem test_add_i_wraps_no_flag :
    look { ((ready 0xF01E).setReg 0#4 1#8).setReg 0xF#4 7#8 with i := 0xFFF#12 } (fun t => (t.i, t.reg 0xF#4)) =
      some (0#12, 7#8) := by decide
theorem test_ld_f : look ((ready 0xFA29).setReg 0xA#4 0x0A#8) (fun t => t.i) = some 0x032#12 := by decide
theorem test_ld_f_not_masked : look ((ready 0xF029).setReg 0#4 0xFF#8) (fun t => t.i) = some 0x4FB#12 := by decide
theorem test_bcd :
    look { (ready 0xF433).setReg 4#4 157#8 with i := 0x300#12 } (fun t => (t.readBytes 0x300 3, t.i)) =
      some ([1#8, 5#8, 7#8], 0x300#12) := by decide
theorem test_bcd_out_of_bounds :
    look { (ready 0xF033).setReg 0#4 255#8 with i := 0xFFE#12 } (fun t => (errOf t, t.readBytes 0xFFE 2)) =
      some ((6, 0x200), [0#8, 0#8]) := by decide
theorem test_dump :
    look { (((ready 0xF255).setReg 0#4 1#8).setReg 1#4 2#8).setReg 2#4 3#8 with i := 0x400#12 }
      (fun t => (t.readBytes 0x400 4, t.i)) = some ([1#8, 2#8, 3#8, 0#8], 0x400#12) := by decide
theorem test_dump_out_of_bounds :
    look { ready 0xFF55 with i := 0xFF1#12 } (fun t => (errOf t, pcOf t)) = some ((6, 0x200), 0x200) := by decide
theorem test_load :
    look { (ready 0xF265).setReg 3#4 0xEE#8 with i := 0x201#12 } (fun t => (t.reg 0#4, t.reg 1#4, t.reg 2#4, t.reg 3#4)) =
      some (0x65#8, 0#8, 0#8, 0xEE#8) := by decide
/-- With the default FONT, and with FONT all 0x5A. -/
theorem test_load_font : look (ready 0xF065) (fun t => t.reg 0#4) = some 0xF0#8 ∧
    look { ready 0xF065 with font := Vector.replicate 80 0x5A#8 } (fun t => t.reg 0#4) = some 0x5A#8 := by decide

/-! ## Display (vectors 2.5, T9, T10) -/

/-- The columns of the lit cells of one row. -/
def litCols (d : Display) (y : Fin 32) : List Nat := (List.range 64).filter fun x => d.cell y (spriteCol x 0)

/-- A machine about to draw one row of a sprite byte at 0x300. -/
def drawing (w : Nat) (b x y : Byte) : State :=
  { ((ready w).setReg 0#4 x).setReg 1#4 y with i := 0x300#12, mem := ((ready w).storeBytes 0x300 [b]).mem }

theorem test_cls : look { ready 0x00E0 with display := Display.clear.setCell 3 5 true } (fun t => t.display) =
    some Display.clear := by decide
theorem test_drw_wraps_columns :
    look (drawing 0xD011 0xFF#8 60#8 5#8) (fun t => (litCols t.display 5, t.reg 0xF#4)) =
      some ([0, 1, 2, 3, 60, 61, 62, 63], 0#8) := by decide
theorem test_drw_bit_order_collision :
    look { drawing 0xD011 0x60#8 0#8 0#8 with display := (Display.clear.setCell 0 0 true).setCell 0 2 true }
      (fun t => (litCols t.display 0, t.reg 0xF#4)) = some ([0, 1], 1#8) := by decide
theorem test_drw_row_clipped :
    look (drawing 0xD011 0xFF#8 124#8 37#8) (fun t => (t.display, t.reg 0xF#4)) = some (Display.clear, 0#8) := by decide
theorem test_drw_clipped_rows_count_for_bounds :
    look { (ready 0xD012).setReg 1#4 40#8 with i := 0xFFF#12 } (fun t => errOf t) = some (6, 0x200) := by decide

/-! ## Keys and timers (vectors 2.6) -/

/-- Key 5 held down. -/
def key5 (s : State) : State := { s with keys := s.keys.set 5 true }

theorem test_skp_pressed : look (key5 ((ready 0xE09E).setReg 0#4 5#8)) pcOf = some 0x204 := by decide
theorem test_skp_bad_key : look ((ready 0xE09E).setReg 0#4 0x10#8) errOf = some (5, 0x200) := by decide
theorem test_sknp_not_pressed : look ((ready 0xE0A1).setReg 0#4 5#8) pcOf = some 0x204 := by decide
theorem test_sknp_pressed : look (key5 ((ready 0xE0A1).setReg 0#4 5#8)) pcOf = some 0x202 := by decide
theorem test_read_dt : look { ready 0xF107 with dt := 6#8 } (fun t => t.reg 1#4) = some 6#8 := by decide
theorem test_set_dt : look ((ready 0xF015).setReg 0#4 7#8) (fun t => t.dt) = some 7#8 := by decide
theorem test_set_st : look ((ready 0xF318).setReg 3#4 0x20#8) (fun t => t.st) = some 0x20#8 := by decide
theorem test_wait_key :
    look (ready 0xF50A) (fun t => (t.run, t.waitX, pcOf t)) = some (.waitKey, 5#4, 0x200) := by decide
theorem test_press_wakes :
    look { ready 0xF50A with run := .waitKey, waitX := 5#4, schedule := [.host (.press 0xC#4)] }
      (fun t => (t.reg 5#4, pcOf t, t.run, t.key 0xC#4, t.lastKey)) = some (0x0C#8, 0x202, .running, true, some 0xC#4) := by
  decide
theorem test_tick :
    look { ready 0 with dt := 0xFF#8, st := 1#8, schedule := [.host .tick] } (fun t => (t.dt, t.st)) = some (0xFE#8, 0#8) := by
  decide
theorem test_tick_saturates :
    look { State.reset with schedule := [.host .tick] } (fun t => (t.dt, t.st)) = some (0#8, 0#8) := by decide

/-! ## Reset, load, lifecycle (vectors 2.7) -/

theorem test_reset_inv : State.reset.Inv where
  memWf := by decide
  runningLoaded := by decide
  pcBound := by decide
  stkBound := by decide
  waitPc := by decide
  waitWord := by decide
  errClear := by decide
  errNone := by decide
  errAddr := by decide
  errLoaded := by decide

theorem test_load_places_code :
    (hostLoad [0x12#8, 0x34#8] State.reset).1.readBytes 0x1FF 4 = [0#8, 0x12#8, 0x34#8, 0#8] ∧
    (hostLoad [0x12#8, 0x34#8] State.reset).1.pc = 0x200#13 ∧ (hostLoad [0x12#8, 0x34#8] State.reset).2 = .done := by decide
theorem test_run_not_loaded : hostRun State.reset = (State.reset, .refused) := by decide
theorem test_halt_in_wait :
    ((hostHalt { ready 0xF50A with run := .waitKey }).1.run, pcOf (hostHalt { ready 0xF50A with run := .waitKey }).1) =
      (.idle, 0x200) := by decide
/-- A store into the font is undone by reset, which installs whatever FONT is (vectors 2.4 and 2.7). -/
theorem test_reset_installs_font :
    let s : State := ({ State.reset with font := Vector.replicate 80 0x5A#8 } : State).storeBytes 0x04F [9#8, 9#8]
    (s.readByte 0x04F, s.readByte 0x050) = (9#8, 9#8) ∧
    ((hostReset s).1.readByte 0x04F, (hostReset s).1.readByte 0x050) = (0x5A#8, 0#8) := by decide
theorem test_reset_keeps_keys : (hostReset (key5 State.reset)).1.key 5#4 = true := by decide
theorem test_no_step_at_reset : (match step State.reset with | .fault r => some r | _ => none) = some .coreIdle := by decide

/-! ## Witnesses: states and operands that meet the hypotheses of the statements of Certificates/Slice0/Obligations.lean, each clause
at a boundary value of its range -/

theorem test_witness_DecodeOfEncodeGivesTheInstructionBack :
    (Instr.sys 0x1E0#12).wf = true ∧ (Instr.drwVxVyN 0xF#4 0#4 0xF#4).wf = true := by decide
theorem test_witness_EncodeOfDecodeGivesTheWordBack : decodeWord 0x81F6#16 = .ok (.shrVx 1#4 0xF#4) := by rfl

/-- PC 0xFFE with a word of a row there; with the schedule empty, and with the core's turn first in it. -/
theorem test_witness_StepRunsTheDecodedInstruction :
    let s : State := { ready 0 with pc := 0xFFE#13, mem := [(0xFFE, 0x60#8), (0xFFF, 0x07#8)] }
    (s.run = .running ∧ s.pc.toNat ≤ 0xFFE ∧ s.schedule = []) ∧
    ({ s with schedule := [.core] } : State).schedule = [.core] ∧ s.readWord s.pc.toNat = 0x6007#16 := by decide
theorem test_witness_StepRunsTheDecodedInstruction_word : decodeWord 0x6007#16 = .ok (.ldVxNn 0#4 7#8) := by rfl

/-- PC 0xFFE with a word of a row (above) and with a word of none; PC 0xFFF and the highest PC value 0x1FFF. -/
theorem test_witness_FetchBoundsAndByteOrder :
    let s : State := { ready 0 with pc := 0xFFE#13 }
    (s.run = .running ∧ s.schedule = [] ∧ s.pc.toNat ≤ 0xFFE ∧ s.readWord s.pc.toNat = 0#16) ∧
    0xFFF ≤ ({ s with pc := 0xFFF#13 } : State).pc.toNat ∧ 0xFFF ≤ ({ s with pc := 0x1FFF#13 } : State).pc.toNat := by decide
theorem test_witness_FetchBoundsAndByteOrder_word : decodeWord 0#16 = .error .invalidInstruction := by rfl

theorem test_witness_CoreStepsExactlyWhenRunning :
    (ready 0x00E0).schedule = [] ∧ (ready 0x00E0).run = .running ∧ State.reset.schedule = [] ∧ State.reset.run = .idle ∧
    ({ ready 0xF50A with run := .waitKey } : State).schedule = [] := by decide
theorem test_witness_ScheduledTurnIsOneTransition :
    ({ State.reset with schedule := [.host .tick, .core] } : State).schedule = .host .tick :: [.core] ∧
    ({ State.reset with schedule := [.core] } : State).schedule = .core :: [] ∧ State.reset.run ≠ .running := by decide

/-- Destination VE beside VF, another register, and destination VF. -/
theorem test_witness_AddAndSubtractWriteResultThenFlag :
    (0xE#4 ≠ 0xF#4) ∧ (0xD#4 ≠ 0xE#4 ∧ 0xD#4 ≠ 0xF#4) ∧
    (((ready 0).setReg 1#4 0xFF#8).reg 1#4).toNat + (((ready 0).setReg 1#4 0xFF#8).reg 2#4).toNat = 255 ∧
    (((ready 0).setReg 1#4 0xFF#8).setReg 2#4 1#8).reg 2#4 = 1#8 := by decide

/-- A register other than the destination; registers on both sides of VF. -/
theorem test_witness_ImmediateFormsLoadOrAdd : (0#4 ≠ 0xF#4) ∧ (0xE#4 ≠ 0xF#4) := by decide
theorem test_witness_MoveAndLogicWriteOnlyTheDestination : (7 < 8) ∧ (0xF#4 ≠ 0#4) := by decide
theorem test_witness_ShiftsMoveOneBitIntoTheFlag : (0xE#4 ≠ 0xF#4) ∧ (0#4 ≠ 0xE#4 ∧ 0#4 ≠ 0xF#4) := by decide
theorem test_witness_RandomIsAFreeByteUnderTheMask : (0 < 8) ∧ (7 < 8) ∧ (0xF#4 ≠ 1#4) := by decide
theorem test_witness_TimerInstructionsMoveOneByte : (0xF#4 ≠ 1#4) := by decide
theorem test_witness_KeyWaitEndsByPressOrHalt : (0xF#4 ≠ 5#4) ∧ (0#4 ≠ 0xC#4) := by decide

theorem test_witness_CallPushesTheNextAddress :
    ({ ready 0 with sp := 15 } : State).sp.val < 16 ∧ ({ ready 0 with sp := 16 } : State).sp.val = 16 := by decide
theorem test_witness_ReturnPopsTheNewestAddress :
    ({ ready 0 with sp := 1 } : State).sp.val = (0 : Fin 16).val + 1 ∧
    ({ ready 0 with sp := 16 } : State).sp.val = (15 : Fin 16).val + 1 ∧ (ready 0).sp.val = 0 := by decide
/-- A call from slot 14, and as the subroutine's end a state in which a nested call has left its address in the dead slot 15. -/
theorem test_witness_ReturnUndoesCall :
    ∃ (h : ({ ready 0 with sp := 14 } : State).sp.val < 16) (t : State),
      exec (.call 0xABC#12) { ready 0 with sp := 14 } = .next t ∧
      ({ t with stk := t.stk.set 15 7#13 } : State).stk[14] = t.stk[14] ∧
      ({ t with stk := t.stk.set 15 7#13 } : State).stk ≠ t.stk ∧ ({ t with stk := t.stk.set 15 7#13 } : State).sp = t.sp :=
  ⟨by decide, _, rfl, by decide, by decide, rfl⟩
theorem test_witness_SixteenCallsNestAndTheSeventeenthFaults :
    (ready 0).sp.val = 0 ∧ (List.replicate 16 0x300#12).length ≤ 16 ∧ (List.replicate 17 0x300#12).length = 17 := by decide
theorem test_witness_LegacyCallStopsTheCore :
    let s : State := { ready 0 with pc := 0xFFE#13, mem := [(0xFFE, 0x0F#8), (0xFFF, 0xFF#8)] }
    (Instr.sys 0xFFF#12).wf = true ∧ s.run = .running ∧ s.schedule = [] ∧ s.pc.toNat ≤ 0xFFE ∧
      s.readWord s.pc.toNat = wordNNN 0x0#4 0xFFF#12 := by decide

/-- I at the last address that is in bounds and at the first that is not: three digits, sixteen registers, one register. -/
theorem test_witness_BcdStoresThreeDigits :
    (ready 0).mem.wf defaultFont = true ∧ ({ ready 0 with i := 0xFFD#12 } : State).i.toNat ≤ 0xFFD ∧
    0xFFE ≤ ({ ready 0 with i := 0xFFE#12 } : State).i.toNat := by decide
theorem test_witness_DumpStoresTheRegisters :
    (ready 0).mem.wf defaultFont = true ∧
    ({ ready 0 with i := 0xFF0#12 } : State).i.toNat + (0xF#4).toNat ≤ 0xFFF ∧
    0xFFF < ({ ready 0 with i := 0xFF1#12 } : State).i.toNat + (0xF#4).toNat ∧
    ({ ready 0 with i := 0xFFF#12 } : State).i.toNat + (0#4).toNat ≤ 0xFFF := by decide
/-- The bounds are those of the dump above; the registers on both sides of X. -/
theorem test_witness_LoadFillsTheRegisters :
    (2#4).toNat ≤ (2#4).toNat ∧ (2#4).toNat < (3#4).toNat ∧
    ({ ready 0 with i := 0xFF0#12 } : State).i.toNat + (0xF#4).toNat ≤ 0xFFF ∧
    0xFFF < ({ ready 0 with i := 0xFFF#12 } : State).i.toNat + (1#4).toNat := by decide
theorem test_witness_LoadAfterDumpRestoresTheRegisters :
    ∃ t, ({ ready 0 with i := 0xFF0#12 } : State).mem.wf defaultFont = true ∧
      ({ ready 0 with i := 0xFF0#12 } : State).i.toNat + (0xF#4).toNat ≤ 0xFFF ∧
      exec (.ldMemVx 0xF#4) { ready 0 with i := 0xFF0#12 } = .next t ∧ t.SameBytes (t.setReg 0#4 9#8) ∧
      (t.setReg 0#4 9#8).i = ({ ready 0 with i := 0xFF0#12 } : State).i := ⟨_, by decide, by decide, rfl, fun _ => rfl, rfl⟩
/-- FX55 at 0x200 over the second byte of its own word and the word after it; FX33 at 0xFFE, with I at its last legal value. -/
theorem test_witness_StoreIsSeenByTheNextFetch :
    (let s : State := { (ready 0xF255).setReg 2#4 0xE0#8 with i := 0x201#12 }
     s.run = .running ∧ s.schedule = [] ∧ s.mem.wf s.font = true ∧ s.pc.toNat ≤ 0xFFE ∧
      s.readWord s.pc.toNat = encodeWord (.ldMemVx 2#4) ∧ s.i.toNat + (2#4).toNat ≤ 0xFFF) ∧
    (let s : State := { ready 0 with pc := 0xFFE#13, i := 0xFFD#12, mem := [(0xFFE, 0xF4#8), (0xFFF, 0x33#8)] }
     s.run = .running ∧ s.schedule = [] ∧ s.mem.wf s.font = true ∧ s.pc.toNat ≤ 0xFFE ∧
      s.readWord s.pc.toNat = encodeWord (.ldBVx 4#4) ∧ s.i.toNat ≤ 0xFFD) := by decide
/-- The premises of FetchesFrom: a core about to fetch at 0xFFE. -/
theorem test_witness_FetchesFrom :
    let u : State := { ready 0 with pc := 0xFFE#13 }
    u.run = .running ∧ u.schedule = [] ∧ u.pc.toNat ≤ 0xFFE := by decide
/-- A byte set and set back, above the font and in it: canonical memories that read alike. -/
theorem test_witness_CanonicalMemoriesWithEqualReadsAreEqual :
    let m : Memory := [(0x300, 7#8)]
    m.wf defaultFont = true ∧ ((m.write defaultFont 0xFFF 9#8).write defaultFont 0xFFF 0#8).wf defaultFont = true ∧
    (m.write defaultFont 0xFFF 9#8).write defaultFont 0xFFF 0#8 = m ∧
    (m.write defaultFont 0 9#8).write defaultFont 0 0xF0#8 = m := by decide

theorem test_witness_DrawXorsTheSpriteImage :
    ({ ready 0 with i := 0xFF1#12 } : State).i.toNat + (0xF#4).toNat ≤ 4096 ∧
    ({ ready 0 with i := 0xFFF#12 } : State).i.toNat + (0#4).toNat ≤ 4096 := by decide
theorem test_witness_DrawPastMemoryStopsTheCore :
    4096 < ({ ready 0 with i := 0xFF2#12 } : State).i.toNat + (0xF#4).toNat ∧
    4096 < ({ ready 0 with i := 0xFFF#12 } : State).i.toNat + (2#4).toNat := by decide
/-- The second draw is made in the state the first leaves (X and Y are not VF). -/
theorem test_witness_DrawingTwiceRestoresTheDisplay :
    let s := drawing 0xD011 0xFF#8 60#8 5#8
    s.i.toNat + (1#4).toNat ≤ 4096 ∧
    (match exec (.drwVxVyN 0#4 1#4 1#4) s with
      | .next t => decide (t.mem = s.mem ∧ t.font = s.font ∧ t.i = s.i ∧ t.reg 0#4 = s.reg 0#4 ∧ t.reg 1#4 = s.reg 1#4 ∧ t.display ≠ s.display)
      | _ => false) = true := by decide

theorem test_witness_KeySkipsReadTheKeyState :
    (((ready 0).setReg 0#4 15#8).reg 0#4).toNat = (15 : Fin 16).val ∧ ((ready 0).reg 0#4).toNat = (0 : Fin 16).val ∧
    15 < (((ready 0).setReg 0#4 16#8).reg 0#4).toNat := by decide
theorem test_witness_ReleaseClearsOneKeyOnly : (key5 State.reset).key 5#4 = true ∧ State.reset.key 5#4 = false := by decide
theorem test_witness_PressOutsideAWaitOnlyLatches : State.reset.run ≠ .waitKey ∧ (ready 0).run ≠ .waitKey := by decide

/-- A loaded core that is Idle, one that runs, one that waits, and one with nothing loaded. -/
theorem test_witness_RunStartsOnlyALoadedIdleCore :
    (hostLoad [0x12#8] State.reset).1.run = .idle ∧ (hostLoad [0x12#8] State.reset).1.loaded = true ∧
    (ready 0).run ≠ .idle ∧ ({ ready 0 with run := .waitKey } : State).run ≠ .idle ∧ State.reset.loaded = false := by decide
theorem test_witness_HaltStopsAndRunContinues : State.reset.run = .idle ∧ (ready 0).loaded = true := by decide
theorem test_witness_LoadResetsThenInstalls :
    State.reset.run = .idle ∧ (List.replicate 3584 0xAA#8).length ≤ 3584 ∧ 3584 < (List.replicate 3585 0xAA#8).length :=
  ⟨rfl, by rw [List.length_replicate], by rw [List.length_replicate]; omega⟩
/-- Hypotheses of TooLargeLoadLeavesTheResetState. -/
theorem test_witness_TooLargeLoadLeavesTheResetState :
    (hostLoad [0x12#8] State.reset).1.run = .idle ∧ 3584 < (List.replicate 3585 0xAA#8).length :=
  ⟨by decide, by rw [List.length_replicate]; omega⟩
theorem test_witness_ResetSetsEveryElement : State.reset.run = .idle ∧ (key5 State.reset).run = .idle := by decide
theorem test_witness_RefusedEventsChangeNothing : (ready 0).run ≠ .idle ∧ State.reset.loaded = false := by decide
theorem test_witness_PowerOnRunsOnlyAfterALoad :
    State.IsPowerOn { State.reset with v := Vector.replicate 16 0x5A#8, pc := 0x1FFF#13, dt := 3#8 } ∧
    (List.replicate 3584 0xAA#8).length ≤ 3584 ∧ ([] : List Byte).length ≤ 3584 :=
  ⟨⟨by decide, by decide, by decide, by decide⟩, by rw [List.length_replicate], by decide⟩

/-! Whole-machine statements: an instruction and its next state, with each premise of a clause true somewhere. -/

theorem test_witness_FontIsAnInputThatNoStepChanges :
    (∃ t, step (ready 0x00E0) = .next t) ∧ State.reset.run = .idle ∧ (79 < 80) := ⟨⟨_, rfl⟩, by decide, by decide⟩
theorem test_witness_EachElementIsWrittenOnlyByItsInstructions :
    (∃ t, exec .cls (ready 0x00E0) = .next t) ∧ writesReg .cls 0xF#4 = false ∧ writesIndex .cls = false ∧
    usesStack .cls = false ∧ storesBytes .cls = false ∧ writesDisplay (.jp 0#12) = false :=
  ⟨⟨_, rfl⟩, by decide, by decide, by decide, by decide, by decide⟩
/-- The clauses on PC, RUN and ERR: FX0A, an instruction that completes, and one that stops. -/
theorem test_witness_EachElementIsWrittenOnlyByItsInstructions_run :
    (∃ t, exec (.ldVxK 0#4) (ready 0) = .next t) ∧ (∀ x, Instr.ret ≠ .ldVxK x) ∧
    (∃ t, exec .ret { ready 0 with sp := 1 } = .next t ∧ t.err.kind = .none) ∧
    ∃ t, exec .ret (ready 0) = .next t ∧ t.err.kind = .stackUnderflow :=
  ⟨⟨_, rfl⟩, (by intro x; simp), ⟨_, rfl, by decide⟩, _, rfl, by decide⟩
theorem test_witness_InstructionsReadOnlyTheRegistersTheyName :
    readsReg (.ldMemVx 2#4) 3#4 = false ∧ readsReg (.drwVxVyN 0#4 1#4 1#4) 0xF#4 = false ∧
    ∃ t, exec (.ldMemVx 2#4) (ready 0) = .next t := ⟨by decide, by decide, _, rfl⟩
theorem test_witness_SoundTimerAndLastKeyAreNeverRead : ∃ t, exec (.ldVxK 0#4) (ready 0) = .next t := ⟨_, rfl⟩
/-- An instruction that completes, and one that stops. -/
theorem test_witness_FatalConditionsArePreciseAndTheInstructionsOwn :
    (∃ t, exec (.ldBVx 0#4) (ready 0) = .next t) ∧
    ∃ t, exec (.ldBVx 0#4) { ready 0 with i := 0xFFE#12 } = .next t ∧ t.err.kind = .memoryOutOfBounds :=
  ⟨⟨_, rfl⟩, _, rfl, by decide⟩
theorem test_witness_FlagsAreZeroOrOneAndWrittenBySix :
    writesReg (.orVxVy 0#4 1#4) 0xF#4 = false ∧ writesFlag (.shlVx 0xF#4 0#4) = true ∧
    ∃ t, exec (.shlVx 0xF#4 0#4) (ready 0) = .next t ∧ t.err.kind ≠ .memoryOutOfBounds :=
  ⟨by decide, by decide, _, rfl, by decide⟩

/-- Each of the five transitions of RUN: `run`; `halt` and a fatal condition; FX0A; `press`; `halt` in a key-wait. -/
theorem test_witness_RunStateChangesOnlyByTheListedTransitions :
    look { (hostLoad [0x12#8] State.reset).1 with schedule := [.host .run] } (·.run) = some .running ∧
    look { ready 0 with schedule := [.host .halt] } (·.run) = some .idle ∧ look (ready 0x00EE) (·.run) = some .idle ∧
    look (ready 0xF50A) (·.run) = some .waitKey ∧
    look { ready 0xF50A with run := .waitKey, schedule := [.host (.press 0#4)] } (·.run) = some .running ∧
    look { ready 0xF50A with run := .waitKey, schedule := [.host .halt] } (·.run) = some .idle := by decide
theorem test_witness_ErrIsClearedOnlyByResetLoadOrRun :
    look { (ready 0).raise .stackOverflow with schedule := [.host .run] } (·.err.kind) = some .none ∧
    ((ready 0).raise .stackOverflow).err.kind ≠ .none ∧ ((ready 0).raise .stackOverflow).run = .idle ∧
    ((ready 0).raise .stackOverflow).schedule = [] := by decide

/-- A loaded, running machine that meets the invariant and stops at its next step. -/
theorem test_witness_RunAfterAFaultFaultsAgain_inv : (ready 0x00EE).Inv where
  memWf := by decide
  runningLoaded := by decide
  pcBound := by decide
  stkBound := by decide
  waitPc := by decide
  waitWord := by decide
  errClear := by decide
  errNone := by decide
  errAddr := by decide
  errLoaded := by decide
theorem test_witness_RunAfterAFaultFaultsAgain :
    (ready 0x00EE).run = .running ∧ (ready 0x00EE).schedule = [] ∧
    look (ready 0x00EE) (·.err.kind) = some .stackUnderflow := by decide
/-- EveryStepKeepsInv: the machine above, and a machine in a key-wait, each with a step. -/
theorem test_witness_EveryStepKeepsInv :
    State.Inv { ready 0xF50A with run := .waitKey, waitX := 5#4, schedule := [.host (.press 0xF#4)] } where
  memWf := by decide
  runningLoaded := by decide
  pcBound := by decide
  stkBound := by decide
  waitPc := by decide
  waitWord := by decide
  errClear := by decide
  errNone := by decide
  errAddr := by decide
  errLoaded := by decide
theorem test_witness_TimersGrowOnlyByTheirInstruction :
    look ((ready 0xF015).setReg 0#4 1#8) (fun t => decide ((ready 0).dt.toNat < t.dt.toNat)) = some true ∧
    look ((ready 0xF018).setReg 0#4 1#8) (fun t => decide ((ready 0).st.toNat < t.st.toNat)) = some true := by decide
/-- A jump to itself at the entry point, and at the last legal fetch address. -/
theorem test_witness_EndedRunStepsInPlace :
    State.EndedAt (ready 0x1200) 0x200#12 ∧
    State.EndedAt { ready 0 with pc := 0xFFE#13, mem := [(0xFFE, 0x1F#8), (0xFFF, 0xFE#8)] } 0xFFE#12 ∧
    (0xFFE#12).toNat ≤ 0xFFE ∧ (ready 0x1200).schedule = [] := by
  refine ⟨⟨?_, ?_, ?_⟩, ⟨?_, ?_, ?_⟩, ?_, ?_⟩ <;> decide

end Sys2Proof.Tests
end

