-- ==== Sys2Proof/Proofs/Fetch.lean ====
section
/-! The core's turn as one equation, a word as a number, and the fetch past the end of memory (20_memory.md R41, R42): O7. -/

namespace Sys2Proof.Machine

/-- `raise` is the entry of its fatal condition (R152). -/
theorem State.stoppedBy_raise (s : State) (k : ErrKind) : s.StoppedBy (s.raise k) k := ⟨rfl, fun _ => rfl⟩

/-- A running core with no turn scheduled fetches and runs (R63). -/
theorem step_of_running {s : State} (hr : s.run = .running) (hs : s.schedule = []) : step s = s.fetchAndRun := by
  simp [step, State.takeTurn, hs, State.coreTurn, hr]

/-- A word is big-endian: the byte at `a` is its high byte (R41). -/
theorem State.toNat_readWord (s : State) (a : Nat) :
    (s.readWord a).toNat = (s.readByte a).toNat * 256 + (s.readByte (a + 1)).toNat := by
  rw [State.readWord, BitVec.toNat_append, ← Nat.shiftLeft_add_eq_or_of_lt (s.readByte (a + 1)).isLt, Nat.shiftLeft_eq]

/-- A fetch past 0xFFE stops before any decode (R42). -/
theorem State.fetchAndRun_of_outOfBounds {s : State} (hp : 0xFFE < s.pc.toNat) :
    s.fetchAndRun = .next (s.raise .memoryOutOfBounds) := by
  rcases s.fetchAndRun_cases with ⟨-, hraise⟩ | ⟨hlegal, -⟩ | ⟨hlegal, -⟩
  · exact hraise
  · exact absurd hlegal (Nat.not_le.mpr hp)
  · exact absurd hlegal (Nat.not_le.mpr hp)

/-- Settles O7: within bounds the word is that of the bytes at PC (`fetchesFrom_of_read`, on memory as it stands); past them the
fetch itself stops. -/
theorem fetchBoundsAndByteOrder : Obligations.FetchBoundsAndByteOrder := by
  intro s hr hs
  constructor
  · intro hlegal
    obtain ⟨hok, herr⟩ := fetchesFrom_of_read (fun _ => rfl) s (fun _ => rfl) hr hs hlegal
    exact ⟨s.readWord s.pc.toNat, s.toNat_readWord _, hok, herr⟩
  · intro hpast
    have hstop : step s = .next (s.raise .memoryOutOfBounds) := by
      rw [step_of_running hr hs, State.fetchAndRun_of_outOfBounds (by omega)]
    exact ⟨_, hstop, s.stoppedBy_raise _⟩

end Sys2Proof.Machine
end

