-- ==== Sys2Proof/Proofs/CallReturn.lean ====
section
/-! What CALL and RET do, one equation per case of the stack (40_flow.md R81, R84): O17 and O18. -/

namespace Sys2Proof

/-- `2NNN` is the row CALL with operand NNN (R65). -/
theorem decodeWord_wordNNN_call (nnn : Addr) : decodeWord (wordNNN 0x2#4 nnn) = .ok (.call nnn) := by
  simp [decodeWord]

end Sys2Proof

namespace Sys2Proof.Machine

/-- The target of a jump or call is NNN itself, as a number (R62). -/
@[simp] theorem toNat_targetNNN (nnn : Addr) : (targetNNN nnn).toNat = nnn.toNat :=
  BitVec.toNat_setWidth_of_le (by decide)

/-- Pop on an empty stack finds nothing (R18). -/
theorem State.pop_empty {s : State} (h : s.sp.val = 0) : s.pop = none := by
  rcases s.pop_cases with ⟨-, hpop⟩ | ⟨n, hn, hsp, -⟩
  · exact hpop
  · omega

/-- Pop with `n + 1` entries takes slot `n`, which keeps its value (R18). -/
theorem State.pop_of_succ {s : State} {n : Fin 16} (h : s.sp.val = n.val + 1) :
    s.pop = some (s.stk[n], { s with sp := n.castSucc }) := by
  rcases s.pop_cases with ⟨hsp, -⟩ | ⟨m, hm, hsp, hpop⟩
  · omega
  · obtain rfl : m = n.val := by omega
    exact hpop

/-- `2NNN` below 16 entries: `npc` goes into slot SP and control to NNN (R84). -/
theorem exec_call_of_lt {s : State} {nnn : Addr} (h : s.sp.val < 16) :
    exec (.call nnn) s = .next (({ s with
      stk := s.stk.set s.sp.val s.npc h, sp := ⟨s.sp.val + 1, Nat.succ_lt_succ h⟩ } : State).setPc (targetNNN nnn)) := by
  simp only [exec, execCall, State.push_of_lt h]

/-- `2NNN` with 16 entries (R84). -/
theorem exec_call_full {s : State} {nnn : Addr} (h : s.sp.val = 16) :
    exec (.call nnn) s = .next (s.raise .stackOverflow) := by
  simp only [exec, execCall, State.push_full h]

/-- `00EE` with an entry: control goes to the newest one (R81). -/
theorem exec_ret_of_succ {s : State} {n : Fin 16} (h : s.sp.val = n.val + 1) :
    exec .ret s = .next (({ s with sp := n.castSucc } : State).setPc s.stk[n]) := by
  simp only [exec, execRet, State.pop_of_succ h]

/-- `00EE` with no entry (R81). -/
theorem exec_ret_empty {s : State} (h : s.sp.val = 0) : exec .ret s = .next (s.raise .stackUnderflow) := by
  simp only [exec, execRet, State.pop_empty h]

/-- Settles O17: the two cases of the stack, each by the equation for it. -/
theorem callPushesTheNextAddress : Obligations.CallPushesTheNextAddress := by
  intro s nnn
  refine ⟨decodeWord_wordNNN_call nnn, fun hroom => ?_, fun hfull => ?_⟩
  · have hslot : (s.stk.set s.sp.val s.npc hroom)[s.sp.val] = s.pc + 2#13 := Vector.getElem_set_self hroom
    have hother : ∀ n : Fin 16, n.val ≠ s.sp.val → (s.stk.set s.sp.val s.npc hroom)[n] = s.stk[n] :=
      fun n hn => Vector.getElem_set_ne hroom n.isLt hn.symm
    exact ⟨_, exec_call_of_lt hroom, hslot, hother, rfl, toNat_targetNNN nnn, rfl, fun _ => rfl⟩
  · exact ⟨_, exec_call_full hfull, s.stoppedBy_raise _⟩

/-- Settles O18: the two cases of the stack, each by the equation for it. -/
theorem returnPopsTheNewestAddress : Obligations.ReturnPopsTheNewestAddress := by
  intro s
  refine ⟨rfl, fun n hentry => ?_, fun hempty => ?_⟩
  · exact ⟨_, exec_ret_of_succ hentry, rfl, rfl, rfl, fun _ => rfl⟩
  · exact ⟨_, exec_ret_empty hempty, s.stoppedBy_raise _⟩

end Sys2Proof.Machine
end

