-- ==== Sys2Proof/Proofs/ImmediateForms.lean ====
section
/-! A register write followed by the advance of PC, and the two immediate forms (41_alu.md R102, R103): O10. -/

namespace Sys2Proof

/-- `6XNN` is the row LD Vx, NN with operands X and NN (R65). -/
theorem decodeWord_wordXNN_ldVxNn (x : Nibble) (nn : Byte) : decodeWord (wordXNN 0x6#4 x nn) = .ok (.ldVxNn x nn) := by
  simp [decodeWord]

/-- `7XNN` is the row ADD Vx, NN with operands X and NN (R65). -/
theorem decodeWord_wordXNN_addVxNn (x : Nibble) (nn : Byte) : decodeWord (wordXNN 0x7#4 x nn) = .ok (.addVxNn x nn) := by
  simp [decodeWord]

end Sys2Proof

namespace Sys2Proof.Machine

/-- `6XNN` writes NN into VX (R102). -/
theorem exec_ldVxNn (x : Nibble) (nn : Byte) (s : State) : exec (.ldVxNn x nn) s = .next (s.setReg x nn).advance := rfl

/-- `7XNN` writes VX + NN, an 8-bit sum, into VX (R103). -/
theorem exec_addVxNn (x : Nibble) (nn : Byte) (s : State) :
    exec (.addVxNn x nn) s = .next (s.setReg x (s.reg x + nn)).advance := rfl

theorem State.reg_setReg_of_ne (s : State) {x z : Nibble} (b : Byte) (h : z ≠ x) : (s.setReg x b).reg z = s.reg z := by
  rw [State.reg_setReg, if_neg h]

/-- An instruction that writes one register and advances leaves everything but the registers and PC. -/
theorem State.onlyRegs_setReg_advance (s : State) (x : Nibble) (b : Byte) : s.OnlyRegs (s.setReg x b).advance :=
  ⟨rfl, fun _ => rfl⟩

/-- Settles O10: both forms are one register write and the advance; the sum of 8-bit words is the sum modulo 256. -/
theorem immediateFormsLoadOrAdd : Obligations.ImmediateFormsLoadOrAdd := by
  intro s x nn
  refine ⟨⟨decodeWord_wordXNN_ldVxNn x nn, _, exec_ldVxNn x nn s, ?_, fun z hz => ?_, ?_⟩,
    ⟨decodeWord_wordXNN_addVxNn x nn, _, exec_addVxNn x nn s, ?_, fun z hz => ?_, ?_⟩⟩
  · exact s.reg_setReg_self x nn
  · exact s.reg_setReg_of_ne nn hz
  · exact s.onlyRegs_setReg_advance x nn
  · have hsum : ((s.setReg x (s.reg x + nn)).advance).reg x = s.reg x + nn := s.reg_setReg_self x _
    rw [hsum, BitVec.toNat_add]
  · exact s.reg_setReg_of_ne _ hz
  · exact s.onlyRegs_setReg_advance x _

end Sys2Proof.Machine
end

