-- ==== Sys2Proof/Proofs/ErrLatch.lean ====
section
/-! What an instruction, the core's turn and a host event can do to ERR (60_exceptions.md R152, R153, R168): O54. -/

namespace Sys2Proof.Machine

/-- Everything an instruction can do to ERR and RUN: it completes, which leaves both alone but for the suspension by FX0A, or it
stops with its own condition (R150, R152). -/
theorem exec_completes_or_raises {i : Instr} {s t : State} (h : exec i s = .next t) :
    (t.err = s.err ∧ (t.run = s.run ∨ ∃ x, i = .ldVxK x)) ∨ ∃ k, mayRaise i = some k ∧ t = s.raise k := by
  cases i with
  | ret =>
    rcases exec_ret_cases h with ⟨-, ht⟩ | ⟨n, hn, -, rfl⟩
    exacts [.inr ⟨_, rfl, ht⟩, .inl ⟨rfl, .inl rfl⟩]
  | call nnn =>
    rcases exec_call_cases h with ⟨-, ht⟩ | ⟨hn, rfl⟩
    exacts [.inr ⟨_, rfl, ht⟩, .inl ⟨rfl, .inl rfl⟩]
  | skpVx x =>
    rcases exec_skpVx_cases h with ⟨-, ht⟩ | ⟨k, -, rfl⟩
    exacts [.inr ⟨_, rfl, ht⟩, .inl ⟨rfl, .inl rfl⟩]
  | sknpVx x =>
    rcases exec_sknpVx_cases h with ⟨-, ht⟩ | ⟨k, -, rfl⟩
    exacts [.inr ⟨_, rfl, ht⟩, .inl ⟨rfl, .inl rfl⟩]
  | ldBVx x =>
    rcases exec_ldBVx_cases h with ⟨-, ht⟩ | ⟨-, rfl⟩
    exacts [.inr ⟨_, rfl, ht⟩, .inl ⟨rfl, .inl rfl⟩]
  | ldMemVx x =>
    rcases exec_ldMemVx_cases h with ⟨-, ht⟩ | ⟨-, rfl⟩
    exacts [.inr ⟨_, rfl, ht⟩, .inl ⟨rfl, .inl rfl⟩]
  | ldVxMem x =>
    rcases exec_ldVxMem_cases h with ⟨-, ht⟩ | ⟨-, rfl⟩
    exacts [.inr ⟨_, rfl, ht⟩, .inl ⟨rfl, .inl rfl⟩]
  | drwVxVyN x y n =>
    rcases exec_drwVxVyN_cases h with ⟨-, ht⟩ | ⟨-, drawn, -, rfl⟩
    exacts [.inr ⟨_, rfl, ht⟩, .inl ⟨rfl, .inl rfl⟩]
  | sys nnn => exact .inr ⟨_, rfl, (Host.Outcome.next.inj h).symm⟩
  | ldVxK x =>
    obtain rfl := Host.Outcome.next.inj h
    exact .inl ⟨rfl, .inr ⟨x, rfl⟩⟩
  | _ =>
    obtain rfl := Host.Outcome.next.inj h
    exact .inl ⟨rfl, .inl rfl⟩

/-- What an instruction raises is one of the six conditions of R150. -/
theorem mayRaise_ne_none {i : Instr} {k : ErrKind} (h : mayRaise i = some k) : k ≠ .none := by
  rintro rfl
  cases i <;> simp [mayRaise] at h

/-- A fatal condition that is entered is latched (R152). -/
theorem State.goneWrong_raise (s : State) {k : ErrKind} (hk : k ≠ .none) : (s.raise k).GoneWrong := hk

/-- The core's step never clears a latched condition: it leaves ERR alone or latches a condition of its own (R153). -/
theorem State.fetchAndRun_keeps_goneWrong {s t : State} (h : s.fetchAndRun = .next t) (hs : s.GoneWrong) : t.GoneWrong := by
  rcases s.fetchAndRun_cases with ⟨-, hstop⟩ | ⟨-, -, hstop⟩ | ⟨-, i, -, hexec⟩
  · obtain rfl := Host.Outcome.next.inj (hstop.symm.trans h)
    exact s.goneWrong_raise (by decide)
  · obtain rfl := Host.Outcome.next.inj (hstop.symm.trans h)
    exact s.goneWrong_raise (by decide)
  · rcases exec_completes_or_raises (hexec.symm.trans h) with ⟨herr, -⟩ | ⟨k, hk, rfl⟩
    · rwa [State.GoneWrong, herr]
    · exact s.goneWrong_raise (mayRaise_ne_none hk)

/-- A press leaves ERR alone, also when it ends a key-wait (R162). -/
theorem hostPress_err (k : Nibble) (s : State) : (hostPress k s).1.err = s.err := by
  unfold hostPress
  split <;> rfl

/-- ERR is left alone by every host event but `reset`, `run` and `load` (R153). -/
theorem hostEvent_keeps_err (e : HostEvent) (s : State) :
    (e = .reset ∨ e = .run ∨ ∃ code, e = .load code) ∨ (hostEvent e s).1.err = s.err := by
  cases e with
  | reset => exact .inl (.inl rfl)
  | run => exact .inl (.inr (.inl rfl))
  | load code => exact .inl (.inr (.inr ⟨code, rfl⟩))
  | press k => exact .inr (hostPress_err k s)
  | _ => exact .inr rfl

/-- With no turn scheduled an Idle core has no step (R63). -/
theorem step_of_idle {s : State} (hr : s.run = .idle) (hs : s.schedule = []) : step s = .fault .coreIdle := by
  simp [step, State.takeTurn, hs, State.coreTurn, hr]

/-- A step that clears ERR is one of the three host events; the core's steps keep a latched condition (R153). -/
theorem step_clears_err {s t : State} (h : step s = .next t) (hs : s.GoneWrong) (ht : ¬ t.GoneWrong) :
    ∃ e rest, s.schedule = .host e :: rest ∧ (e = .reset ∨ e = .run ∨ ∃ code, e = .load code) := by
  rcases step_cases s with ⟨e, rest, hsched, hstep⟩ | ⟨rest, -, -, hstep⟩ | ⟨rest, -, -, hstep⟩ | ⟨-, -, hstep⟩ |
      ⟨-, -, hstep⟩ | ⟨-, -, hstep⟩ <;> rw [hstep] at h
  · obtain rfl := Host.Outcome.next.inj h
    rcases hostEvent_keeps_err e { s with schedule := rest } with hclears | herr
    · exact ⟨e, rest, hsched, hclears⟩
    · exact absurd (by rwa [State.GoneWrong, herr]) ht
  · obtain rfl := Host.Outcome.next.inj h
    exact absurd hs ht
  · exact absurd (State.fetchAndRun_keeps_goneWrong h hs) ht
  · exact absurd (State.fetchAndRun_keeps_goneWrong h hs) ht
  · cases h
  · cases h

/-- Settles O54: an Idle core has no step, and of the steps that exist only three host events can clear ERR. -/
theorem errIsClearedOnlyByResetLoadOrRun : Obligations.ErrIsClearedOnlyByResetLoadOrRun := by
  constructor
  · rintro s hr hs ⟨t, ht⟩
    cases (step_of_idle hr hs).symm.trans ht
  · intro s t h hs ht
    exact step_clears_err h hs (not_not_intro ht)

end Sys2Proof.Machine
end

