-- ==== Sys2Proof/Proofs/HostControl.lean ====
section
/-! The host's `release`, `run`, `halt` and queries, one equation per case (60_exceptions.md R163, R166 to R170): O37, O39, O40
and O41. -/

namespace Sys2Proof.Machine

/-- Reading the key latch after a release (R163). -/
theorem key_hostRelease (s : State) (k z : Nibble) : (hostRelease k s).1.key z = if z = k then false else s.key z := by
  have hslot : k.toNat = z.toNat ↔ z = k := by rw [BitVec.toNat_inj, eq_comm]
  simp [State.key, hostRelease, Vector.getElem_set, hslot]

/-- Releasing a key that is not pressed writes back what its latch holds (R163). -/
theorem hostRelease_of_not_pressed {s : State} {k : Nibble} (h : s.key k = false) : (hostRelease k s).1 = s := by
  have hkeys : s.keys.set (regSlot k) false = s.keys := by
    rw [← h]
    exact Vector.set_getElem_self _
  rw [hostRelease, hkeys]

/-- Settles O37: the latch after a release, key by key. -/
theorem releaseClearsOneKeyOnly : Obligations.ReleaseClearsOneKeyOnly := by
  intro s k
  refine ⟨(hostRelease k s).1, rfl, ?_, fun j hj => ?_, rfl, hostRelease_of_not_pressed⟩
  · rw [key_hostRelease, if_pos rfl]
  · rw [key_hostRelease, if_neg hj]

/-- `run` of a loaded Idle core (R168). -/
theorem hostRun_of_loaded_idle {s : State} (hr : s.run = .idle) (hl : s.loaded = true) :
    hostRun s = ({ s with run := .running, err := ⟨.none, 0#13⟩ }, .done) := if_pos ⟨hr, hl⟩

/-- `run` outside its precondition (R168, R170). -/
theorem hostRun_refused {s : State} (h : s.run ≠ .idle ∨ s.loaded = false) : hostRun s = (s, .refused) := by
  refine if_neg fun ⟨hidle, hloaded⟩ => ?_
  rcases h with hr | hl
  · exact hr hidle
  · exact absurd hloaded (by simp [hl])

/-- Settles O39: the two cases of `run`. -/
theorem runStartsOnlyALoadedIdleCore : Obligations.RunStartsOnlyALoadedIdleCore :=
  fun _ => ⟨hostRun_of_loaded_idle, hostRun_refused⟩

/-- `halt` of an Idle core is a no-op (R169). -/
theorem hostHalt_of_idle {s : State} (hr : s.run = .idle) : (hostHalt s).1 = s := by
  rw [hostHalt, ← hr]

/-- Settles O40: a halted core is Idle, so `run` starts it as it starts any loaded Idle core. -/
theorem haltStopsAndRunContinues : Obligations.HaltStopsAndRunContinues := by
  intro s
  refine ⟨rfl, hostHalt_of_idle, fun hl => ?_⟩
  have hidle : (hostHalt s).1.run = .idle := rfl
  exact hostRun_of_loaded_idle hidle hl

/-- The core is not Idle exactly in the two other run states (R24, R167). -/
theorem run_bne_idle_iff (r : RunState) : (r != .idle) = true ↔ r = .running ∨ r = .waitKey := by
  cases r <;> decide

/-- Settles O41: the three queries return the state they were asked of. -/
theorem queriesAnswerAndChangeNothing : Obligations.QueriesAnswerAndChangeNothing :=
  fun s => ⟨rfl, rfl, _, rfl, run_bne_idle_iff s.run⟩

end Sys2Proof.Machine
end

