-- ==== Sys2Proof/Proofs/ResetAndLoad.lean ====
section
/-! `reset` and `load` from Idle, one equation per case, and the bytes they leave in memory (20_memory.md R46,
70_reset_and_hazards.md R190, R191, R194): O43 and O44. -/

namespace Sys2Proof.Machine

/-- Memory after a reset is its reset content (R46, R190). -/
@[simp] theorem State.readByte_resetCore (s : State) (a : Nat) : s.resetCore.readByte a = resetByte s.font a :=
  State.readByte_of_mem_nil (s := s.resetCore) rfl a

/-- The bytes after a load into a reset machine: the program from 0x200 on, the reset content elsewhere (R191). -/
theorem State.readByte_install_resetCore (s : State) {code : List Byte} (hfits : code.length ≤ 3584) (a : Nat) :
    (s.resetCore.install code).readByte a =
      if 0x200 ≤ a ∧ a < 0x200 + code.length then code.getD (a - 0x200) 0#8 else s.resetCore.readByte a := by
  have hroom : 0x200 + code.length ≤ 4096 := by omega
  exact State.readByte_storeBytes (s := s.resetCore) Memory.wf_nil hroom a

/-- `reset` of an Idle core (R190). -/
theorem hostReset_of_idle {s : State} (hr : s.run = .idle) : hostReset s = (s.resetCore, .done) := if_pos hr

/-- `load` of a program that fits, into an Idle core (R191). -/
theorem hostLoad_of_fits {s : State} {code : List Byte} (hr : s.run = .idle) (hfits : code.length ≤ 3584) :
    hostLoad code s = (s.resetCore.install code, .done) := by
  rw [hostLoad, if_pos hr, if_pos hfits]

/-- `load` of a program that is too large, into an Idle core (R194). -/
theorem hostLoad_of_too_large {s : State} {code : List Byte} (hr : s.run = .idle) (hlarge : 3584 < code.length) :
    hostLoad code s = (s.resetCore, .loadTooLarge) := by
  rw [hostLoad, if_pos hr, if_neg (Nat.not_le.mpr hlarge)]

/-- The state an Idle core is loaded into shows in the outcome only by what a reset keeps of it. -/
theorem hostLoad_congr_resetCore {s t : State} (code : List Byte) (hs : s.run = .idle) (ht : t.run = .idle)
    (h : t.resetCore = s.resetCore) : hostLoad code t = hostLoad code s := by
  simp only [hostLoad, if_pos hs, if_pos ht, h]

/-- A load of an Idle core, successful or not, leaves it Idle and leaves alone all that a reset keeps. -/
theorem hostLoad_idle_and_resetCore {s : State} (code : List Byte) (hr : s.run = .idle) :
    (hostLoad code s).1.run = .idle ∧ (hostLoad code s).1.resetCore = s.resetCore := by
  rcases Nat.lt_or_ge 3584 code.length with hlarge | hfits
  · rw [hostLoad_of_too_large hr hlarge]
    exact ⟨rfl, rfl⟩
  · rw [hostLoad_of_fits hr hfits]
    exact ⟨rfl, rfl⟩

/-- A second load fully replaces a first one (R191). -/
theorem hostLoad_hostLoad {s : State} (first code : List Byte) (hr : s.run = .idle) :
    hostLoad code (hostLoad first s).1 = hostLoad code s := by
  obtain ⟨hidle, hkept⟩ := hostLoad_idle_and_resetCore first hr
  exact hostLoad_congr_resetCore code hr hidle hkept

/-- Settles O43: the two cases of `load` against the one of `reset`, and the second load of a machine that is still Idle. -/
theorem loadResetsThenInstalls : Obligations.LoadResetsThenInstalls := by
  intro s code hr
  have hreset : hostEvent .reset s = (s.resetCore, .done) := hostReset_of_idle hr
  rw [hreset]
  refine ⟨fun hfits => ?_, hostLoad_of_too_large hr, fun first => hostLoad_hostLoad first code hr⟩
  exact ⟨s.resetCore.install code, hostLoad_of_fits hr hfits, s.readByte_install_resetCore hfits, rfl, rfl, rfl, rfl⟩

/-- Settles O44: a load that is too large ends where the reset does. -/
theorem tooLargeLoadLeavesTheResetState : Obligations.TooLargeLoadLeavesTheResetState := by
  intro s code hr hlarge
  have hreset : s.resetCore = (hostEvent .reset s).1 := (congrArg Prod.fst (hostReset_of_idle hr)).symm
  refine ⟨s.resetCore, hostLoad_of_too_large hr hlarge, hreset, rfl, rfl, fun a h => ?_, fun a h => ?_, rfl⟩
  · rw [State.readByte_resetCore, resetByte_of_lt h]
  · rw [State.readByte_resetCore, resetByte_of_le h]

end Sys2Proof.Machine
end

