-- ==== Sys2Proof/Proofs/Encoding.lean ====
section
/-! The decoder against the encoder, in both directions, and the words of no row (30_encoding.md R60 to R67): O1 to O5. -/

namespace Sys2Proof

/-! ### Decoding what was encoded -/

/-- The operand of a well-formed SYS: a nonzero low byte, and the word is not that of CLS or RET (R67, R82). -/
theorem sysOperandOk_iff {nnn : Addr} :
    sysOperandOk nnn = true ↔ nnn.setWidth 8 ≠ 0#8 ∧ wordNNN 0x0#4 nnn ≠ 0x00E0#16 ∧ wordNNN 0x0#4 nnn ≠ 0x00EE#16 := by
  have hword : ∀ p : Addr, wordNNN 0x0#4 nnn = wordNNN 0x0#4 p ↔ nnn = p := fun p =>
    ⟨fun h => by simpa using congrArg immNNN h, fun h => h ▸ rfl⟩
  have hcls : wordNNN 0x0#4 nnn = 0x00E0#16 ↔ nnn = 0x0E0#12 := hword 0x0E0#12
  have hret : wordNNN 0x0#4 nnn = 0x00EE#16 ↔ nnn = 0x0EE#12 := hword 0x0EE#12
  simp [sysOperandOk, hcls, hret, and_assoc]

/-- The word of a well-formed instruction decodes to it: the fields of the word are the operands (R62, R64). -/
theorem decodeWord_encodeWord {i : Instr} (h : i.wf = true) : decodeWord (encodeWord i) = .ok i := by
  cases i with
  | cls => rfl
  | ret => rfl
  | sys nnn =>
    obtain ⟨hlow, hcls, hret⟩ := sysOperandOk_iff.mp h
    simp [encodeWord, decodeWord, decode0, hlow, hcls, hret]
  | seVxVy x y => simp [encodeWord, decodeWord, decodeXY0]
  | sneVxVy x y => simp [encodeWord, decodeWord, decodeXY0]
  | skpVx x => simp [encodeWord, decodeWord, decodeE]
  | sknpVx x => simp [encodeWord, decodeWord, decodeE]
  | ldVxDt x | ldVxK x | ldDtVx x | ldStVx x | addIVx x | ldFVx x | ldBVx x | ldMemVx x | ldVxMem x =>
    simp [encodeWord, decodeWord, decodeF]
  | ldVxVy x y | orVxVy x y | andVxVy x y | xorVxVy x y | addVxVy x y | subVxVy x y | shrVx x y | subnVxVy x y | shlVx x y =>
    simp [encodeWord, decodeWord, decode8]
  | _ => simp [encodeWord, decodeWord]

/-- Settles O1: the two bytes make the word again, which decodes to the instruction. -/
theorem decodeOfEncodeGivesTheInstructionBack : Obligations.DecodeOfEncodeGivesTheInstructionBack := by
  intro i rest hwf
  simp [encode, bytesOfWord, decode, decodeWord_encodeWord hwf]

/-! ### Encoding what was decoded -/

/-- An instruction is well formed and its word is `w`: what a decode of `w` to it must say. -/
def EncodedBy (w : Word16) (i : Instr) : Prop := i.wf = true ∧ encodeWord i = w

theorem wordNNN_of_f1 {w : Word16} {op : Nibble} (h : f1 w = op) : wordNNN op (immNNN w) = w := by
  rw [← h, wordNNN_fields]

theorem wordXNN_of_f1 {w : Word16} {op : Nibble} {nn : Byte} (h : f1 w = op) (hnn : immNN w = nn) :
    wordXNN op (f2 w) nn = w := by
  rw [← h, ← hnn, wordXNN_fields]

theorem wordXYN_of_f1 {w : Word16} {op n : Nibble} (h : f1 w = op) (hn : f4 w = n) :
    wordXYN op (f2 w) (f3 w) n = w := by
  rw [← h, ← hn, wordXYN_fields]

/-- The operand of a word of the `0` family that is no other row's makes a well-formed SYS. -/
theorem sysOperandOk_immNNN {w : Word16} (hop : f1 w = 0x0#4) (hlow : immNN w ≠ 0#8) (hcls : w ≠ 0x00E0#16)
    (hret : w ≠ 0x00EE#16) : sysOperandOk (immNNN w) = true := by
  have hword : wordNNN 0x0#4 (immNNN w) = w := wordNNN_of_f1 hop
  have hnn : (immNNN w).setWidth 8 = immNN w := by rw [← immNN_wordNNN 0x0#4, hword]
  rw [sysOperandOk_iff, hword, hnn]
  exact ⟨hlow, hcls, hret⟩

theorem encodedBy_of_decode0 {w : Word16} {i : Instr} (hop : f1 w = 0x0#4) (h : decode0 w = .ok i) : EncodedBy w i := by
  have hword : wordNNN 0x0#4 (immNNN w) = w := wordNNN_of_f1 hop
  unfold decode0 at h
  split_ifs at h with hcls hret hlow <;> cases h
  · exact ⟨rfl, hcls.symm⟩
  · exact ⟨rfl, hret.symm⟩
  · exact ⟨sysOperandOk_immNNN hop hlow hcls hret, hword⟩

theorem encodedBy_of_decodeXY0 {w : Word16} {i j : Instr} (hwf : i.wf = true)
    (hword : f4 w = 0x0#4 → encodeWord i = w) (h : decodeXY0 w i = .ok j) : EncodedBy w j := by
  unfold decodeXY0 at h
  split_ifs at h with hn
  cases h
  exact ⟨hwf, hword hn⟩

theorem encodedBy_of_decode8 {w : Word16} {i : Instr} (hop : f1 w = 0x8#4) (h : decode8 w = .ok i) : EncodedBy w i := by
  unfold decode8 at h
  split at h <;> cases h
  all_goals exact ⟨rfl, wordXYN_of_f1 hop (BitVec.eq_of_toNat_eq ‹_›)⟩

theorem encodedBy_of_decodeE {w : Word16} {i : Instr} (hop : f1 w = 0xE#4) (h : decodeE w = .ok i) : EncodedBy w i := by
  unfold decodeE at h
  split at h <;> cases h
  all_goals exact ⟨rfl, wordXNN_of_f1 hop (BitVec.eq_of_toNat_eq ‹_›)⟩

theorem encodedBy_of_decodeF {w : Word16} {i : Instr} (hop : f1 w = 0xF#4) (h : decodeF w = .ok i) : EncodedBy w i := by
  unfold decodeF at h
  split at h <;> cases h
  all_goals exact ⟨rfl, wordXNN_of_f1 hop (BitVec.eq_of_toNat_eq ‹_›)⟩

/-- A word that decodes is the word of the instruction it decodes to (R64). -/
theorem encodedBy_of_decodeWord {w : Word16} {i : Instr} (h : decodeWord w = .ok i) : EncodedBy w i := by
  unfold decodeWord at h
  split at h
  case h_1 hop => exact encodedBy_of_decode0 (BitVec.eq_of_toNat_eq hop) h
  case h_2 hop | h_3 hop | h_11 hop | h_12 hop =>
    cases h
    exact ⟨rfl, wordNNN_of_f1 (BitVec.eq_of_toNat_eq hop)⟩
  case h_4 hop | h_5 hop | h_7 hop | h_8 hop | h_13 hop =>
    cases h
    exact ⟨rfl, wordXNN_of_f1 (BitVec.eq_of_toNat_eq hop) rfl⟩
  case h_6 hop | h_10 hop => exact encodedBy_of_decodeXY0 rfl (wordXYN_of_f1 (BitVec.eq_of_toNat_eq hop)) h
  case h_9 hop => exact encodedBy_of_decode8 (BitVec.eq_of_toNat_eq hop) h
  case h_14 hop =>
    cases h
    exact ⟨rfl, wordXYN_of_f1 (BitVec.eq_of_toNat_eq hop) rfl⟩
  case h_15 hop => exact encodedBy_of_decodeE (BitVec.eq_of_toNat_eq hop) h
  case h_16 =>
    have hop : f1 w = 0xF#4 := by simp only [imp_false] at *; bv_omega
    exact encodedBy_of_decodeF hop h

/-- Settles O2: family by family, the fields read off the word put it together again. -/
theorem encodeOfDecodeGivesTheWordBack : Obligations.EncodeOfDecodeGivesTheWordBack := fun _ _ => encodedBy_of_decodeWord

/-- Settles O4: both directions of the encoding, on the instruction SYS. -/
theorem legacyFamilyIsTheRestOfTheZeroFamily : Obligations.LegacyFamilyIsTheRestOfTheZeroFamily := by
  intro w nnn
  constructor
  · intro h
    obtain ⟨hwf, rfl⟩ := encodedBy_of_decodeWord h
    obtain ⟨hlow, hcls, hret⟩ := sysOperandOk_iff.mp hwf
    exact ⟨f1_wordNNN _ _, by rwa [encodeWord, immNN_wordNNN], hcls, hret, (immNNN_wordNNN _ _).symm⟩
  · rintro ⟨hop, hlow, hcls, hret, rfl⟩
    have hword : encodeWord (.sys (immNNN w)) = w := wordNNN_of_f1 hop
    have hwf : (Instr.sys (immNNN w)).wf = true := sysOperandOk_immNNN hop hlow hcls hret
    rw [← decodeWord_encodeWord hwf, hword]

/-! ### The words of no row -/

theorem decode0_eq_error {w : Word16} : decode0 w = .error .invalidInstruction ↔ immNN w = 0#8 := by
  unfold decode0
  split_ifs with hcls hret hlow
  · simp [hcls, immNN]
  · simp [hret, immNN]
  · simp [hlow]
  · simp [hlow]

theorem decodeXY0_eq_error {w : Word16} {i : Instr} : decodeXY0 w i = .error .invalidInstruction ↔ f4 w ≠ 0#4 := by
  unfold decodeXY0
  split_ifs with hn <;> simp [hn]

theorem decode8_eq_error {w : Word16} :
    decode8 w = .error .invalidInstruction ↔ 8 ≤ (f4 w).toNat ∧ f4 w ≠ 0xE#4 := by
  unfold decode8
  split
  case h_10 => simp only [imp_false, true_iff] at *; bv_omega
  all_goals simp only [reduceCtorEq, false_iff]; bv_omega

theorem decodeE_eq_error {w : Word16} :
    decodeE w = .error .invalidInstruction ↔ immNN w ≠ 0x9E#8 ∧ immNN w ≠ 0xA1#8 := by
  unfold decodeE
  split
  case h_3 => simp only [imp_false, true_iff] at *; bv_omega
  all_goals simp only [reduceCtorEq, false_iff]; bv_omega

theorem decodeF_eq_error {w : Word16} : decodeF w = .error .invalidInstruction ↔
    immNN w ∉ [0x07#8, 0x0A#8, 0x15#8, 0x18#8, 0x1E#8, 0x29#8, 0x33#8, 0x55#8, 0x65#8] := by
  simp only [List.mem_cons, List.not_mem_nil, or_false, not_or]
  unfold decodeF
  split
  case h_10 => simp only [imp_false, true_iff] at *; bv_omega
  all_goals simp only [reduceCtorEq, false_iff]; bv_omega

/-- The sixteen families of words: six with words of no row, ten without. -/
theorem f1_cases (w : Word16) :
    f1 w = 0x0#4 ∨ f1 w = 0x5#4 ∨ f1 w = 0x8#4 ∨ f1 w = 0x9#4 ∨ f1 w = 0xE#4 ∨ f1 w = 0xF#4 ∨
    f1 w ∈ [0x1#4, 0x2#4, 0x3#4, 0x4#4, 0x6#4, 0x7#4, 0xA#4, 0xB#4, 0xC#4, 0xD#4] := by
  generalize f1 w = op
  revert op
  decide

/-- In ten families every word decodes (R65). -/
theorem decodeWord_ne_error {w : Word16}
    (h : f1 w ∈ [0x1#4, 0x2#4, 0x3#4, 0x4#4, 0x6#4, 0x7#4, 0xA#4, 0xB#4, 0xC#4, 0xD#4]) (e : DecodeError) :
    decodeWord w ≠ .error e := by
  simp only [List.mem_cons, List.not_mem_nil, or_false] at h
  rcases h with h | h | h | h | h | h | h | h | h | h <;> simp [decodeWord, h]

/-- Settles O3: the families with words of no row, each by the lemma on its decoder, and the families without. -/
theorem invalidWordsAreExactlyTheListedOnes : Obligations.InvalidWordsAreExactlyTheListedOnes := by
  intro w
  rcases f1_cases w with hop | hop | hop | hop | hop | hop | hop
  · simp [decodeWord, hop, decode0_eq_error]
  · simp [decodeWord, hop, decodeXY0_eq_error]
  · simp [decodeWord, hop, decode8_eq_error]
  · simp [decodeWord, hop, decodeXY0_eq_error]
  · simp [decodeWord, hop, decodeE_eq_error]
  · simp [decodeWord, hop, decodeF_eq_error]
  · refine iff_of_false (decodeWord_ne_error hop _) ?_
    rintro (⟨h, -⟩ | ⟨h, -⟩ | ⟨h, -⟩ | ⟨h, -⟩ | ⟨h, -⟩ | ⟨h, -⟩) <;> simp [h] at hop

/-- Settles O5: the words of the six instructions. -/
theorem wordsWrittenOutFromTheMapDecode : Obligations.WordsWrittenOutFromTheMapDecode := by
  refine ⟨?_, ?_, ?_, ?_, ?_, ?_⟩ <;> rfl

end Sys2Proof
end

