-- ==== Sys2Proof/Proofs/Effects.lean ====
section
/-! An instruction in two parts: the effect it chooses, from the operands it reads, and that effect applied to the state, which is
all it writes. `exec_eq_apply` ties the two to `exec`; who reads what and who writes what (10_state.md R28) are then facts about
one part each: O8, O48 to O52. -/

namespace Sys2Proof.Machine

/-- What an instruction does to the state, once its operands are read. -/
inductive Effect where
  /-- a fatal condition (R152) -/
  | stop (k : ErrKind)
  /-- a skip, taken or not (R90) -/
  | skip (taken : Bool)
  /-- a jump -/
  | jump (t : Pc)
  /-- a call or return: the stack after it, and its target (R81, R84) -/
  | stack (stk : Vector Pc 16) (sp : Fin 17) (t : Pc)
  /-- one register written -/
  | reg (x : Nibble) (b : Byte)
  /-- one register, then the flag (R101) -/
  | flag (x : Nibble) (b : Byte) (f : Bool)
  /-- one register, and a free byte used up (R113) -/
  | random (x : Nibble) (b : Byte)
  /-- V0 on written (R125) -/
  | load (bs : List Byte)
  /-- I written -/
  | index (a : Addr)
  /-- bytes stored at I (R123, R124) -/
  | store (bs : List Byte)
  /-- the display cleared (R130) -/
  | clear
  /-- the display drawn on, and the collision in VF (R132) -/
  | draw (drawn : Display × Bool)
  /-- DT written -/
  | delay (b : Byte)
  /-- ST written -/
  | sound (b : Byte)
  /-- the first half of FX0A (R143) -/
  | suspend (x : Nibble)

/-- The state after an effect: PC goes to the next word unless the effect says otherwise (R63). -/
def State.apply (s : State) : Effect → State
  | .stop k => s.raise k
  | .skip taken => s.skipIf taken
  | .jump t => s.setPc t
  | .stack stk sp t => ({ s with stk := stk, sp := sp } : State).setPc t
  | .reg x b => (s.setReg x b).advance
  | .flag x b f => (s.setRegFlag x b f).advance
  | .random x b => (s.drawByte.2.setReg x b).advance
  | .load bs => ({ s with v := (s.setRegs 0 bs).v } : State).advance
  | .index a => (s.setIndex a).advance
  | .store bs => (s.storeBytes s.i.toNat bs).advance
  | .clear => (s.setDisplay Display.clear).advance
  | .draw drawn => ((s.setDisplay drawn.1).setReg regVF (flagByte drawn.2)).advance
  | .delay b => (s.setDelay b).advance
  | .sound b => (s.setSound b).advance
  | .suspend x => s.suspend x

/-- The stack operation of a call or return, or its fatal condition. -/
def stackEffect (k : ErrKind) : Option (Pc × State) → Effect
  | some (t, s) => .stack s.stk s.sp t
  | none => .stop k

/-- The skip of EX9E and EXA1 on a legal key index, or InvalidKeyIndex (R140, R141). -/
def keyEffect (skips : Nibble → Bool) : Option Nibble → Effect
  | some k => .skip (skips k)
  | none => .stop .invalidKeyIndex

/-- An access to `n` bytes at I, or MemoryOutOfBounds (R44). -/
def State.rangeEffect (s : State) (n : Nat) (e : Effect) : Effect :=
  if rangeLegal s.i n then e else .stop .memoryOutOfBounds

/-- The effect an instruction chooses. -/
def effect (s : State) : Instr → Effect
  | .cls => .clear
  | .ret => stackEffect .stackUnderflow s.pop
  | .sys _ => .stop .unsupportedLegacyCall
  | .jp nnn => .jump (targetNNN nnn)
  | .call nnn => stackEffect .stackOverflow ((s.push s.npc).map (targetNNN nnn, ·))
  | .seVxNn x nn => .skip (s.reg x == nn)
  | .sneVxNn x nn => .skip (s.reg x != nn)
  | .seVxVy x y => .skip (s.reg x == s.reg y)
  | .sneVxVy x y => .skip (s.reg x != s.reg y)
  | .ldVxNn x nn => .reg x nn
  | .addVxNn x nn => .reg x (s.reg x + nn)
  | .ldVxVy x y => .reg x (s.reg y)
  | .orVxVy x y => .reg x (s.reg x ||| s.reg y)
  | .andVxVy x y => .reg x (s.reg x &&& s.reg y)
  | .xorVxVy x y => .reg x (s.reg x ^^^ s.reg y)
  | .addVxVy x y => .flag x (s.reg x + s.reg y) (carryOut (s.reg x) (s.reg y))
  | .subVxVy x y => .flag x (s.reg x - s.reg y) (notBorrow (s.reg x) (s.reg y))
  | .shrVx x _ => .flag x (s.reg x >>> 1) (shiftedOutLow (s.reg x))
  | .subnVxVy x y => .flag x (s.reg y - s.reg x) (notBorrow (s.reg y) (s.reg x))
  | .shlVx x _ => .flag x (s.reg x <<< 1) (shiftedOutHigh (s.reg x))
  | .ldINnn nnn => .index nnn
  | .jpV0Nnn nnn => .jump (s.targetV0 nnn)
  | .rndVxNn x nn => .random x (nn &&& s.drawByte.1)
  | .drwVxVyN x y n => s.rangeEffect n.toNat
      (.draw (drawSprite s.readByte s.i.toNat (s.reg x).toNat (s.reg y).toNat n.toNat s.display))
  | .skpVx x => keyEffect s.key (keyOperand (s.reg x))
  | .sknpVx x => keyEffect (!s.key ·) (keyOperand (s.reg x))
  | .ldVxDt x => .reg x s.dt
  | .ldVxK x => .suspend x
  | .ldDtVx x => .delay (s.reg x)
  | .ldStVx x => .sound (s.reg x)
  | .addIVx x => .index (s.indexPlus x)
  | .ldFVx x => .index (glyphAddr (s.reg x))
  | .ldBVx x => s.rangeEffect 3 (.store (bcdDigits (s.reg x)))
  | .ldMemVx x => s.rangeEffect (x.toNat + 1) (.store (s.regsFrom 0 (x.toNat + 1)))
  | .ldVxMem x => s.rangeEffect (x.toNat + 1) (.load (s.readBytes s.i.toNat (x.toNat + 1)))

/-! ### The tie to `exec` -/

theorem State.withRange_apply (s : State) (n : Nat) (e : Effect) :
    s.withRange n (s.apply e) = s.apply (s.rangeEffect n e) := by
  unfold State.withRange State.rangeEffect
  split <;> rfl

theorem exec_eq_apply_of_range {i : Instr} {s : State} {n : Nat} (e : Effect) (heffect : effect s i = s.rangeEffect n e)
    (hexec : exec i s = .next (s.withRange n (s.apply e))) : exec i s = .next (s.apply (effect s i)) := by
  rw [hexec, heffect, State.withRange_apply]

/-- An instruction is its effect on the state. -/
theorem exec_eq_apply (i : Instr) (s : State) : exec i s = .next (s.apply (effect s i)) := by
  cases i with
  | ret =>
    rcases s.pop_cases with ⟨-, hpop⟩ | ⟨n, hn, -, hpop⟩ <;> simp only [exec, execRet, effect, hpop] <;> rfl
  | call nnn =>
    rcases s.push_cases s.npc with ⟨-, hpush⟩ | ⟨hn, hpush⟩ <;> simp only [exec, execCall, effect, hpush] <;> rfl
  | skpVx x =>
    simp only [exec, execSkpVx, effect]
    cases keyOperand (s.reg x) <;> rfl
  | sknpVx x =>
    simp only [exec, execSknpVx, effect]
    cases keyOperand (s.reg x) <;> rfl
  | drwVxVyN x y n => exact exec_eq_apply_of_range (.draw _) rfl rfl
  | ldBVx x => exact exec_eq_apply_of_range (.store _) rfl rfl
  | ldMemVx x => exact exec_eq_apply_of_range (.store _) rfl rfl
  | ldVxMem x => exact exec_eq_apply_of_range (.load _) rfl (by rw [State.apply, ← State.setRegs_frame]; rfl)
  | _ => rfl

theorem apply_effect_of_exec {i : Instr} {s t : State} (h : exec i s = .next t) : t = s.apply (effect s i) :=
  Host.Outcome.next.inj (h.symm.trans (exec_eq_apply i s))

/-! ### Which instruction chooses which effect (R11, R28, R151) -/

/-- The effects an instruction may choose in a state: those the tables of who writes what allow it, with targets, return addresses
and stored ranges within their bounds. -/
def Effect.AllowedTo (s : State) (i : Instr) : Effect → Prop
  | .stop k => mayRaise i = some k
  | .skip _ => True
  | .jump t => t.toNat ≤ 0x10FE
  | .stack stk _ t => usesStack i = true ∧ (∀ n : Fin 16, stk[n] = s.stk[n] ∨ stk[n] = s.npc) ∧
      (t.toNat ≤ 0xFFF ∨ ∃ n : Fin 16, t = s.stk[n])
  | .reg x _ => writesReg i x = true
  | .flag x _ _ => writesReg i x = true ∧ writesReg i regVF = true
  | .random x _ => writesReg i x = true ∧ ∃ nn, i = .rndVxNn x nn
  | .load bs => bs.length ≤ 16 ∧ ∀ z : Nibble, z.toNat < bs.length → writesReg i z = true
  | .index _ => writesIndex i = true
  | .store bs => storesBytes i = true ∧ s.i.toNat + bs.length ≤ 4096
  | .clear => writesDisplay i = true
  | .draw _ => writesDisplay i = true ∧ writesReg i regVF = true
  | .delay _ => ∃ x, i = .ldDtVx x
  | .sound _ => ∃ x, i = .ldStVx x
  | .suspend x => i = .ldVxK x

theorem keyEffect_allowedTo {s : State} {i : Instr} (hk : mayRaise i = some .invalidKeyIndex) (skips : Nibble → Bool) :
    ∀ o, (keyEffect skips o).AllowedTo s i
  | some _ => trivial
  | none => hk

theorem State.rangeEffect_allowedTo {i : Instr} {s : State} {n : Nat} {e : Effect}
    (hk : mayRaise i = some .memoryOutOfBounds) (he : s.i.toNat + n ≤ 4096 → e.AllowedTo s i) :
    (s.rangeEffect n e).AllowedTo s i := by
  unfold State.rangeEffect
  split
  · rename_i hlegal
    exact he (of_decide_eq_true hlegal)
  · exact hk

theorem effect_ret_allowedTo (s : State) : (effect s .ret).AllowedTo s .ret := by
  rcases s.pop_cases with ⟨-, hpop⟩ | ⟨n, hn, -, hpop⟩ <;> simp only [effect, hpop]
  · rfl
  · exact ⟨rfl, fun _ => .inl rfl, .inr ⟨⟨n, hn⟩, rfl⟩⟩

theorem effect_call_allowedTo (s : State) (nnn : Addr) : (effect s (.call nnn)).AllowedTo s (.call nnn) := by
  rcases s.push_cases s.npc with ⟨-, hpush⟩ | ⟨hn, hpush⟩ <;> simp only [effect, hpush]
  · rfl
  · refine ⟨rfl, fun n => ?_, .inl ?_⟩
    · rcases eq_or_ne s.sp.val n.val with h | h
      · exact .inr (by simp [h])
      · exact .inl (Vector.getElem_set_ne hn n.isLt h)
    · rw [toNat_targetNNN]
      omega

/-- The target of BNNN is not masked (R89, D1). -/
theorem State.toNat_targetV0 (s : State) (nnn : Addr) : (s.targetV0 nnn).toNat = nnn.toNat + (s.reg 0x0#4).toNat := by
  rw [State.targetV0, BitVec.toNat_add, BitVec.toNat_setWidth_of_le (by decide), BitVec.toNat_setWidth_of_le (by decide)]
  omega

/-- Every instruction chooses an effect the tables allow it. -/
theorem effect_allowedTo (s : State) (i : Instr) : (effect s i).AllowedTo s i := by
  cases i with
  | ret => exact effect_ret_allowedTo s
  | call nnn => exact effect_call_allowedTo s nnn
  | skpVx x => exact keyEffect_allowedTo rfl _ _
  | sknpVx x => exact keyEffect_allowedTo rfl _ _
  | drwVxVyN x y n => exact State.rangeEffect_allowedTo rfl fun _ => ⟨rfl, rfl⟩
  | ldBVx x => exact State.rangeEffect_allowedTo rfl fun hroom => ⟨rfl, hroom⟩
  | ldMemVx x => exact State.rangeEffect_allowedTo rfl fun hroom => ⟨rfl, (s.length_regsFrom _ _).symm ▸ hroom⟩
  | ldVxMem x =>
    refine State.rangeEffect_allowedTo rfl fun _ => ?_
    simp only [Effect.AllowedTo, State.length_readBytes, writesReg, decide_eq_true_eq]
    exact ⟨x.isLt, fun z => Nat.le_of_lt_succ⟩
  | jp nnn =>
    have htarget : (targetNNN nnn).toNat = nnn.toNat := toNat_targetNNN nnn
    simp only [effect, Effect.AllowedTo]
    omega
  | jpV0Nnn nnn =>
    have htarget := s.toNat_targetV0 nnn
    simp only [effect, Effect.AllowedTo]
    omega
  | addVxVy x y | subVxVy x y | shrVx x y | subnVxVy x y | shlVx x y =>
    simp [effect, Effect.AllowedTo, writesReg, regVF]
  | rndVxNn x nn => exact ⟨beq_self_eq_true x, nn, rfl⟩
  | ldVxNn x _ | addVxNn x _ | ldVxVy x _ | orVxVy x _ | andVxVy x _ | xorVxVy x _ | ldVxDt x => exact beq_self_eq_true x
  | ldDtVx x => exact ⟨x, rfl⟩
  | ldStVx x => exact ⟨x, rfl⟩
  | seVxNn _ _ | sneVxNn _ _ | seVxVy _ _ | sneVxVy _ _ => trivial
  | _ => rfl

/-! ### Frames: an effect writes no element that its instruction may not -/

section
variable {s : State} {i : Instr} {e : Effect} (he : e.AllowedTo s i)
include he

theorem State.reg_apply_of_not_writes {z : Nibble} (hz : writesReg i z = false) : (s.apply e).reg z = s.reg z := by
  have hne : ∀ {x}, writesReg i x = true → z ≠ x := by
    rintro x hx rfl
    exact Bool.false_ne_true (hz.symm.trans hx)
  cases e with
  | reg x b => exact s.reg_setReg_of_ne b (hne he)
  | flag x b f =>
    obtain ⟨hx, hvf⟩ := he
    exact (State.reg_setReg_of_ne _ _ (hne hvf)).trans (s.reg_setReg_of_ne b (hne hx))
  | random x b => exact State.reg_setReg_of_ne _ b (hne he.1)
  | load bs =>
    obtain ⟨hlen, hwrites⟩ := he
    refine (s.reg_setRegs 0 bs (by omega) z).trans (if_neg ?_)
    rintro ⟨-, hlt⟩
    exact hne (hwrites z (by omega)) rfl
  | draw drawn => exact State.reg_setReg_of_ne _ _ (hne he.2)
  | _ => rfl

theorem State.i_apply_of_not_writes (hi : writesIndex i = false) : (s.apply e).i = s.i := by
  cases e with
  | index a => exact absurd he (by simp [Effect.AllowedTo, hi])
  | _ => rfl

theorem State.stack_apply_of_not_uses (hi : usesStack i = false) : (s.apply e).stk = s.stk ∧ (s.apply e).sp = s.sp := by
  cases e with
  | stack stk sp t => exact absurd he.1 (by simp [hi])
  | _ => exact ⟨rfl, rfl⟩

theorem State.mem_apply_of_not_stores (hi : storesBytes i = false) : (s.apply e).mem = s.mem := by
  cases e with
  | store bs => exact absurd he.1 (by simp [hi])
  | _ => rfl

theorem State.display_apply_of_not_writes (hi : writesDisplay i = false) : (s.apply e).display = s.display := by
  cases e with
  | clear => exact absurd he (by simp [Effect.AllowedTo, hi])
  | draw drawn => exact absurd he.1 (by simp [hi])
  | _ => rfl

theorem State.dt_apply_of_ne (hi : ∀ x, i ≠ .ldDtVx x) : (s.apply e).dt = s.dt := by
  cases e with
  | delay b =>
    obtain ⟨x, hx⟩ := he
    exact absurd hx (hi x)
  | _ => rfl

theorem State.st_apply_of_ne (hi : ∀ x, i ≠ .ldStVx x) : (s.apply e).st = s.st := by
  cases e with
  | sound b =>
    obtain ⟨x, hx⟩ := he
    exact absurd hx (hi x)
  | _ => rfl

theorem State.waitX_apply_of_ne (hi : ∀ x, i ≠ .ldVxK x) : (s.apply e).waitX = s.waitX := by
  cases e with
  | suspend x => exact absurd he (hi x)
  | _ => rfl

theorem State.draws_apply_of_ne (hi : ∀ x nn, i ≠ .rndVxNn x nn) : (s.apply e).draws = s.draws := by
  cases e with
  | random x b =>
    obtain ⟨-, nn, hx⟩ := he
    exact absurd hx (hi x nn)
  | _ => rfl

end

section
variable (s : State) (e : Effect)

@[simp] theorem State.apply_keys : (s.apply e).keys = s.keys := by cases e <;> rfl
@[simp] theorem State.apply_lastKey : (s.apply e).lastKey = s.lastKey := by cases e <;> rfl
@[simp] theorem State.apply_loaded : (s.apply e).loaded = s.loaded := by cases e <;> rfl
@[simp] theorem State.apply_schedule : (s.apply e).schedule = s.schedule := by cases e <;> rfl
@[simp] theorem State.apply_font : (s.apply e).font = s.font := by cases e <;> rfl

end

/-- Bytes read alike where memory and FONT are alike (R29). -/
theorem State.sameBytes_of_mem {s t : State} (hmem : t.mem = s.mem) (hfont : t.font = s.font) : s.SameBytes t := by
  intro a
  rw [State.readByte, State.readByte, hmem, hfont]

/-- Settles O48: the frames of the effect the instruction chose; for RUN and ERR, `exec_completes_or_raises`. -/
theorem eachElementIsWrittenOnlyByItsInstructions : Obligations.EachElementIsWrittenOnlyByItsInstructions := by
  intro i s t h
  obtain rfl := apply_effect_of_exec h
  have he := effect_allowedTo s i
  refine ⟨fun z => State.reg_apply_of_not_writes he, State.i_apply_of_not_writes he, State.stack_apply_of_not_uses he,
    fun hi => ?_, State.display_apply_of_not_writes he, State.dt_apply_of_ne he, State.st_apply_of_ne he,
    State.waitX_apply_of_ne he, State.draws_apply_of_ne he, s.apply_keys _, s.apply_lastKey _, s.apply_loaded _,
    s.apply_schedule _, s.apply_font _, ?_, fun hi => ?_⟩
  · have hmem := State.mem_apply_of_not_stores he hi
    exact ⟨hmem, State.sameBytes_of_mem hmem (s.apply_font _)⟩
  · rintro x rfl
    exact ⟨rfl, rfl, rfl⟩
  · rcases exec_completes_or_raises h with ⟨herr, hrun | ⟨x, hx⟩⟩ | ⟨k, hk, hraise⟩
    · exact .inl ⟨hrun, herr⟩
    · exact absurd hx (hi x)
    · rw [hraise]
      exact .inr ⟨k, hk, rfl, rfl, rfl⟩

/-- Settles O51: a stop is the entry of the fatal condition. -/
theorem fatalConditionsArePreciseAndTheInstructionsOwn : Obligations.FatalConditionsArePreciseAndTheInstructionsOwn := by
  intro i s t h
  rcases exec_completes_or_raises h with hdone | ⟨k, hk, rfl⟩
  · exact .inl hdone
  · exact .inr ⟨k, hk, s.stoppedBy_raise k⟩

/-- VF after a flag writer that completes (R101). -/
theorem reg_VF_of_writesFlag {i : Instr} {s t : State} (h : exec i s = .next t) (hi : writesFlag i = true) :
    t = s.raise .memoryOutOfBounds ∨ ∃ f, t.reg regVF = flagByte f := by
  cases i with
  | drwVxVyN x y n =>
    rcases exec_drwVxVyN_cases h with ⟨-, hstop⟩ | ⟨-, drawn, -, rfl⟩
    · exact .inl hstop
    · exact .inr ⟨drawn.2, State.reg_setReg_self _ regVF _⟩
  | addVxVy x y | subVxVy x y | shrVx x y | subnVxVy x y | shlVx x y =>
    obtain rfl := Host.Outcome.next.inj h
    exact .inr ⟨_, State.reg_setReg_self _ regVF _⟩
  | _ => cases hi

/-- Settles O52: the frame of VF, and what the flag writers leave in it. -/
theorem flagsAreZeroOrOneAndWrittenBySix : Obligations.FlagsAreZeroOrOneAndWrittenBySix := by
  intro i s t h
  constructor
  · obtain rfl := apply_effect_of_exec h
    exact State.reg_apply_of_not_writes (effect_allowedTo s i)
  · intro hi hcompletes
    rcases reg_VF_of_writesFlag h hi with rfl | ⟨f, hf⟩
    · exact absurd (s.stoppedBy_raise _) hcompletes
    · rw [show (0xF#4 : Nibble) = regVF from rfl, hf]
      exact flagByte_zero_or_one f

/-- In a key-wait, with no turn scheduled, the core has no step (R63). -/
theorem step_of_waitKey {s : State} (hr : s.run = .waitKey) (hs : s.schedule = []) : step s = .fault .coreWaiting := by
  simp [step, State.takeTurn, hs, State.coreTurn, hr]

/-- The core's step, once enabled, has a next state (R63). -/
theorem State.fetchAndRun_next (s : State) : ∃ t, s.fetchAndRun = .next t := by
  rcases s.fetchAndRun_cases with ⟨-, h⟩ | ⟨-, -, h⟩ | ⟨-, i, -, h⟩
  exacts [⟨_, h⟩, ⟨_, h⟩, ⟨_, h.trans (exec_eq_apply i s)⟩]

/-- Settles O8: every instruction has an effect, and without a schedule the step is the core's turn. -/
theorem coreStepsExactlyWhenRunning : Obligations.CoreStepsExactlyWhenRunning := by
  refine ⟨fun i s => ⟨_, exec_eq_apply i s⟩, fun s hs => ⟨⟨?_, fun hr => ?_⟩, fun hr => step_of_idle hr hs,
    fun hr => step_of_waitKey hr hs⟩⟩
  · rintro ⟨t, ht⟩
    cases hr : s.run with
    | running => rfl
    | idle => cases (step_of_idle hr hs).symm.trans ht
    | waitKey => cases (step_of_waitKey hr hs).symm.trans ht
  · rw [step_of_running hr hs]
    exact s.fetchAndRun_next

end Sys2Proof.Machine
end

