-- ==== Sys2Proof/Proofs/Reads.lean ====
section
/-! What an instruction reads (10_state.md R28): the choice of its effect does not see a register it does not name, ST or
LASTKEY, and no effect reads them: O49 and O50. -/

namespace Sys2Proof.Machine

/-! ### A register not named -/

theorem State.reg_setReg_of_not_reads (s : State) {i : Instr} {x z : Nibble} (b : Byte) (hz : readsReg i z = false)
    (hx : readsReg i x = true) : (s.setReg z b).reg x = s.reg x := by
  refine s.reg_setReg_of_ne b ?_
  rintro rfl
  exact Bool.false_ne_true (hz.symm.trans hx)

theorem State.regsFrom_congr {s t : State} {k n : Nat} (hn : k + n ≤ 16)
    (h : ∀ z : Nibble, z.toNat < k + n → t.reg z = s.reg z) : t.regsFrom k n = s.regsFrom k n := by
  induction n generalizing k with
  | zero => rfl
  | succ n ih =>
    have hhead : t.reg (BitVec.ofNat 4 k) = s.reg (BitVec.ofNat 4 k) := h _ (by rw [BitVec.toNat_ofNat]; omega)
    simp only [State.regsFrom, hhead]
    rw [ih (by omega) fun z hz => h z (by omega)]

/-- RET reads nothing but the stack (R81). -/
theorem effect_ret_congr {s t : State} (hstk : t.stk = s.stk) (hsp : t.sp = s.sp) : effect t .ret = effect s .ret := by
  rcases s.pop_cases with ⟨hempty, hpop⟩ | ⟨n, hn, hentry, hpop⟩
  · have ht : t.pop = none := State.pop_empty (hsp ▸ hempty)
    simp only [effect, hpop, ht]
  · have ht : t.pop = some (t.stk[n], _) := State.pop_of_succ (n := ⟨n, hn⟩) (hsp ▸ hentry)
    simp only [effect, hpop, ht, stackEffect, hstk]
    rfl

/-- CALL reads nothing but the stack and PC (R84). -/
theorem effect_call_congr {s t : State} (nnn : Addr) (hstk : t.stk = s.stk) (hsp : t.sp = s.sp) (hpc : t.pc = s.pc) :
    effect t (.call nnn) = effect s (.call nnn) := by
  have hnpc : t.npc = s.npc := congrArg (· + 2#13) hpc
  simp only [effect, State.push, hstk, hsp, hnpc]
  split <;> rfl

/-- The chosen effect is the same whatever the registers hold that the instruction does not read. -/
theorem effect_setReg {i : Instr} {z : Nibble} (s : State) (b : Byte) (hz : readsReg i z = false) :
    effect (s.setReg z b) i = effect s i := by
  have hreg : ∀ {x}, readsReg i x = true → (s.setReg z b).reg x = s.reg x := s.reg_setReg_of_not_reads b hz
  cases i with
  | ret => exact effect_ret_congr rfl rfl
  | call nnn => exact effect_call_congr nnn rfl rfl rfl
  | ldMemVx x =>
    have hregs : (s.setReg z b).regsFrom 0 (x.toNat + 1) = s.regsFrom 0 (x.toNat + 1) :=
      State.regsFrom_congr (by omega) fun y hy => hreg (decide_eq_true (by omega))
    simp only [effect, hregs]
    rfl
  | seVxVy x y | sneVxVy x y | orVxVy x y | andVxVy x y | xorVxVy x y | addVxVy x y | subVxVy x y | subnVxVy x y =>
    have hx := hreg (x := x) (by simp [readsReg])
    have hy := hreg (x := y) (by simp [readsReg])
    simp only [effect, hx, hy]
  | drwVxVyN x y n =>
    have hx := hreg (x := x) (by simp [readsReg])
    have hy := hreg (x := y) (by simp [readsReg])
    simp only [effect, hx, hy]
    rfl
  | ldVxVy x y =>
    have hy := hreg (x := y) (by simp [readsReg])
    simp only [effect, hy]
  | jpV0Nnn nnn =>
    have hx := hreg (x := 0#4) (by simp [readsReg])
    simp only [effect, State.targetV0, hx]
  | addIVx x =>
    have hx := hreg (x := x) (by simp [readsReg])
    simp only [effect, State.indexPlus, hx]
    rfl
  | seVxNn x _ | sneVxNn x _ | addVxNn x _ | shrVx x _ | shlVx x _  | ldDtVx x | ldStVx x
  | ldFVx x =>
    have hx := hreg (x := x) (by simp [readsReg])
    simp only [effect, hx]
  | ldBVx x | skpVx x | sknpVx x =>
    have hx := hreg (x := x) (by simp [readsReg])
    simp only [effect, hx]
    rfl
  | _ => rfl

/-- States that differ in one register only are equal once it is overwritten. -/
theorem State.setReg_eq_of_agree {s t : State} {z : Nibble} (c : Byte) (hframe : t = { s with v := t.v })
    (hreg : ∀ y, y ≠ z → t.reg y = s.reg y) : t.setReg z c = s.setReg z c := by
  have hv : (t.setReg z c).v = (s.setReg z c).v := State.v_ext fun y => by
    rw [State.reg_setReg, State.reg_setReg]
    split
    · rfl
    · exact hreg y ‹_›
  calc t.setReg z c = { s with v := (t.setReg z c).v } := by rw [hframe]; rfl
    _ = s.setReg z c := by rw [hv]; rfl

/-- An effect passes on a difference in one register, and spreads it to no other element. -/
theorem State.setReg_apply_setReg {s : State} {i : Instr} {e : Effect} (he : e.AllowedTo s i) (z : Nibble) (b c : Byte) :
    ((s.setReg z b).apply e).setReg z c = (s.apply e).setReg z c := by
  cases e with
  | reg x r | flag x r f | random x r | draw drawn =>
    refine State.setReg_eq_of_agree c rfl fun y hy => ?_
    simp [State.apply, hy]
  | load bs =>
    refine State.setReg_eq_of_agree c rfl fun y hy => ?_
    have hlen : 0 + bs.length ≤ 16 := by
      rw [Nat.zero_add]
      exact he.1
    change ((s.setReg z b).setRegs 0 bs).reg y = (s.setRegs 0 bs).reg y
    rw [State.reg_setRegs _ _ _ hlen, State.reg_setRegs _ _ _ hlen, s.reg_setReg_of_ne b hy]
  | _ => exact State.setReg_eq_of_agree c rfl fun y => s.reg_setReg_of_ne b

/-- Settles O49: the same effect is chosen, and applied to states that differ in that register only. -/
theorem instructionsReadOnlyTheRegistersTheyName : Obligations.InstructionsReadOnlyTheRegistersTheyName := by
  intro i s t z b hz h
  obtain rfl := apply_effect_of_exec h
  refine ⟨(s.setReg z b).apply (effect s i), ?_, State.setReg_apply_setReg (effect_allowedTo s i) z b _⟩
  rw [exec_eq_apply, effect_setReg s b hz]

/-! ### ST and LASTKEY -/

theorem State.setRegs_v_congr {s t : State} (k : Nat) (bs : List Byte) (h : t.v = s.v) :
    (t.setRegs k bs).v = (s.setRegs k bs).v := by
  induction bs generalizing s t k with
  | nil => exact h
  | cons b bs ih => exact ih (k + 1) (congrArg (·.set (regSlot (BitVec.ofNat 4 k)) b) h)

/-- The state with another ST and LASTKEY. -/
def State.withUnread (s : State) (b : Byte) (l : Option Nibble) : State := { s with st := b, lastKey := l }

theorem effect_withUnread (s : State) (i : Instr) (b : Byte) (l : Option Nibble) : effect (s.withUnread b l) i = effect s i := by
  cases i with
  | ret => exact effect_ret_congr rfl rfl
  | call nnn => exact effect_call_congr nnn rfl rfl rfl
  | ldMemVx x =>
    have hregs : (s.withUnread b l).regsFrom 0 (x.toNat + 1) = s.regsFrom 0 (x.toNat + 1) :=
      State.regsFrom_congr (by omega) fun _ _ => rfl
    simp only [effect, hregs]
    rfl
  | _ => rfl

/-- An effect on a state with another ST and LASTKEY keeps that LASTKEY, and that ST unless it writes ST. -/
theorem State.apply_withUnread (s : State) (b : Byte) (l : Option Nibble) (e : Effect) :
    (s.withUnread b l).apply e = (s.apply e).withUnread ((s.withUnread b l).apply e).st l := by
  cases e with
  | load bs =>
    have hv : ((s.withUnread b l).setRegs 0 bs).v = (s.setRegs 0 bs).v := State.setRegs_v_congr 0 bs rfl
    simp only [State.apply, hv]
    rfl
  | _ => rfl

theorem State.st_apply_withUnread {s : State} {i : Instr} {e : Effect} (he : e.AllowedTo s i) (hi : ∀ x, i ≠ .ldStVx x)
    (b : Byte) (l : Option Nibble) : ((s.withUnread b l).apply e).st = b := by
  cases e with
  | sound c =>
    obtain ⟨x, hx⟩ := he
    exact absurd hx (hi x)
  | _ => rfl

/-- Settles O50: the same effect is chosen, and none reads ST or LASTKEY. -/
theorem soundTimerAndLastKeyAreNeverRead : Obligations.SoundTimerAndLastKeyAreNeverRead := by
  intro i s t b l h
  obtain rfl := apply_effect_of_exec h
  refine ⟨(s.withUnread b l).apply (effect s i), ?_, ?_, State.apply_lastKey _ _, fun hi => ?_⟩
  · rw [← effect_withUnread s i b l]
    exact exec_eq_apply i _
  · rw [State.apply_withUnread]
    rfl
  · exact State.st_apply_withUnread (effect_allowedTo s i) hi b l

end Sys2Proof.Machine
end

