-- ==== Sys2Proof/Proofs/Invariant.lean ====
section
/-! The machine's invariant at reset, and kept by every step of core and host: O58 and O59. -/

namespace Sys2Proof.Machine

/-- Settles O58: after reset memory lists nothing, the stack holds zeros, and the core is Idle with ERR clear. -/
theorem invHoldsAtReset : Obligations.InvHoldsAtReset where
  memWf := rfl
  runningLoaded h := absurd rfl h
  pcBound := by decide
  stkBound := by decide
  waitPc := nofun
  waitWord := nofun
  errClear h := absurd rfl h
  errNone _ := rfl
  errAddr h := absurd rfl h
  errLoaded h := absurd rfl h

/-! ### The core -/

/-- The schedule is not part of the invariant. -/
theorem State.Inv.with_schedule {s : State} (h : s.Inv) (rest : List Turn) : State.Inv { s with schedule := rest } :=
  ⟨h.memWf, h.runningLoaded, h.pcBound, h.stkBound, h.waitPc, h.waitWord, h.errClear, h.errNone, h.errAddr, h.errLoaded⟩

/-- A fatal condition of a running core is latched in a loaded machine at its PC (R152). -/
theorem State.Inv.raise {s : State} (h : s.Inv) (hr : s.run = .running) {k : ErrKind} (hk : k ≠ .none) : (s.raise k).Inv where
  memWf := h.memWf
  runningLoaded hrun := absurd rfl hrun
  pcBound := h.pcBound
  stkBound := h.stkBound
  waitPc := nofun
  waitWord := nofun
  errClear hrun := absurd rfl hrun
  errNone hnone := absurd hnone hk
  errAddr _ := rfl
  errLoaded _ := h.runningLoaded (by simp [hr])

/-- What is left to show of a machine that is in no key-wait and holds no condition. -/
theorem State.Inv.of_err_clear {t : State} (hrun : t.run ≠ .waitKey) (hloaded : t.run ≠ .idle → t.loaded = true)
    (herr : t.err = ⟨.none, 0#13⟩) (hmem : t.mem.wf t.font = true) (hpc : t.pc.toNat ≤ 0x10FE)
    (hstk : ∀ n : Fin 16, t.stk[n].toNat ≤ 0x1000) : t.Inv where
  memWf := hmem
  runningLoaded := hloaded
  pcBound := hpc
  stkBound := hstk
  waitPc hwait := absurd hwait hrun
  waitWord hwait := absurd hwait hrun
  errClear _ := herr
  errNone _ := by rw [herr]
  errAddr hkind := absurd (by rw [herr]) hkind
  errLoaded hkind := absurd (by rw [herr]) hkind

/-- What is left to show of a step that leaves the core running. -/
theorem State.Inv.of_running {t : State} (hrun : t.run = .running) (hloaded : t.loaded = true) (herr : t.err = ⟨.none, 0#13⟩)
    (hmem : t.mem.wf t.font = true) (hpc : t.pc.toNat ≤ 0x10FE) (hstk : ∀ n : Fin 16, t.stk[n].toNat ≤ 0x1000) : t.Inv :=
  .of_err_clear (by simp [hrun]) (fun _ => hloaded) herr hmem hpc hstk

/-- The next word after a legal fetch is at most 0x1000: PC does not wrap (R13). -/
theorem State.toNat_npc {s : State} (hp : s.pc.toNat ≤ 0xFFE) : s.npc.toNat = s.pc.toNat + 2 := by
  unfold State.npc
  bv_omega

theorem State.toNat_pc_skipIf_le {s : State} (hp : s.pc.toNat ≤ 0xFFE) (taken : Bool) :
    (s.skipIf taken).pc.toNat ≤ 0x1002 := by
  have hnpc := State.toNat_npc hp
  rw [State.skipIf_pc]
  split <;> bv_omega

/-- A running core that executes the instruction at a legal PC keeps the invariant: it stops, suspends on the word just
fetched, or goes on. -/
theorem State.Inv.apply {s : State} {i : Instr} {e : Effect} (h : s.Inv) (hr : s.run = .running) (hp : s.pc.toNat ≤ 0xFFE)
    (hw : s.fetch = encodeWord i) (he : e.AllowedTo s i) : (s.apply e).Inv := by
  have hloaded : s.loaded = true := h.runningLoaded (by simp [hr])
  have herr : s.err = ⟨.none, 0#13⟩ := h.errClear (by simp [hr])
  have hnpc : s.npc.toNat ≤ 0x1000 := by
    rw [State.toNat_npc hp]
    omega
  cases e with
  | stop k => exact h.raise hr (mayRaise_ne_none he)
  | suspend x =>
    obtain rfl : i = .ldVxK x := he
    exact { h with
      runningLoaded := fun _ => hloaded
      waitPc := fun _ => hp
      waitWord := fun _ => hw
      errClear := fun _ => herr }
  | skip taken =>
    have hpc := State.toNat_pc_skipIf_le hp taken
    exact .of_running hr hloaded herr h.memWf (by simp only [State.apply]; omega) h.stkBound
  | jump t => exact .of_running hr hloaded herr h.memWf he h.stkBound
  | stack stk sp t =>
    obtain ⟨-, hstk, ht⟩ := he
    refine .of_running hr hloaded herr h.memWf ?_ fun n => ?_
    · rcases ht with ht | ⟨n, rfl⟩
      · exact le_trans ht (by decide)
      · exact le_trans (h.stkBound n) (by decide)
    · change stk[n].toNat ≤ 0x1000
      rcases hstk n with hn | hn <;> rw [hn]
      · exact h.stkBound n
      · exact hnpc
  | store bs => exact .of_running hr hloaded herr (State.wf_storeBytes h.memWf he.2) (le_trans hnpc (by decide)) h.stkBound
  | _ => exact .of_running hr hloaded herr h.memWf (le_trans hnpc (by decide)) h.stkBound

/-- The core's step keeps the invariant (R63). -/
theorem State.Inv.fetchAndRun {s t : State} (h : s.Inv) (hr : s.run = .running) (ht : s.fetchAndRun = .next t) : t.Inv := by
  rcases s.fetchAndRun_cases with ⟨-, hstop⟩ | ⟨-, -, hstop⟩ | ⟨hp, i, hdecode, hexec⟩
  · obtain rfl := Host.Outcome.next.inj (hstop.symm.trans ht)
    exact h.raise hr (by decide)
  · obtain rfl := Host.Outcome.next.inj (hstop.symm.trans ht)
    exact h.raise hr (by decide)
  · obtain rfl := apply_effect_of_exec (hexec.symm.trans ht)
    obtain ⟨-, hw⟩ := encodedBy_of_decodeWord hdecode
    exact h.apply hr hp hw.symm (effect_allowedTo s i)

/-! ### The host -/

theorem State.stk_resetCore_le (s : State) (n : Fin 16) : s.resetCore.stk[n].toNat ≤ 0x1000 := by
  have hzero : s.resetCore.stk[n] = 0#13 := Vector.getElem_replicate n.isLt
  simp [hzero]

theorem State.inv_resetCore (s : State) : s.resetCore.Inv :=
  .of_err_clear nofun (absurd rfl) rfl rfl (Nat.zero_le _) s.stk_resetCore_le

theorem State.inv_install_resetCore (s : State) {code : List Byte} (hfits : code.length ≤ 3584) :
    (s.resetCore.install code).Inv := by
  have hroom : 0x200 + code.length ≤ 4096 := by omega
  have hentry : (BitVec.ofNat 13 Config.progBase).toNat ≤ 0x10FE := by decide
  exact .of_err_clear nofun (absurd rfl) rfl (State.wf_storeBytes (s := s.resetCore) rfl hroom) hentry
    s.stk_resetCore_le

theorem State.Inv.hostReset {s : State} (h : s.Inv) : (hostReset s).1.Inv := by
  unfold Machine.hostReset
  split
  · exact s.inv_resetCore
  · exact h

theorem State.Inv.hostLoad {s : State} (h : s.Inv) (code : List Byte) : (hostLoad code s).1.Inv := by
  unfold Machine.hostLoad
  split
  · split
    · exact s.inv_install_resetCore ‹_›
    · exact s.inv_resetCore
  · exact h

theorem State.Inv.hostRun {s : State} (h : s.Inv) : (hostRun s).1.Inv := by
  unfold Machine.hostRun
  split
  · rename_i hstart
    exact .of_running rfl hstart.2 rfl h.memWf h.pcBound h.stkBound
  · exact h

theorem State.Inv.hostHalt {s : State} (h : s.Inv) : (hostHalt s).1.Inv :=
  { h with
    runningLoaded := fun hrun => absurd rfl hrun
    waitPc := nofun
    waitWord := nofun
    errClear := fun hrun => absurd rfl hrun }

/-- A press ends a key-wait at the word after the FX0A, which stands at a legal PC (R25, R162). -/
theorem State.Inv.hostPress {s : State} (h : s.Inv) (k : Nibble) : (hostPress k s).1.Inv := by
  unfold Machine.hostPress
  split
  · rename_i hwait
    have hrun : s.run ≠ .idle := by simp [hwait]
    have hnpc := State.toNat_npc (h.waitPc hwait)
    have hp := h.waitPc hwait
    refine .of_running rfl (h.runningLoaded hrun) (h.errClear hrun) h.memWf ?_ h.stkBound
    change s.npc.toNat ≤ 0x10FE
    omega
  · exact { h with }

/-- Every host event keeps the invariant. -/
theorem State.Inv.hostEvent {s : State} (h : s.Inv) (e : HostEvent) : (hostEvent e s).1.Inv := by
  cases e with
  | reset => exact h.hostReset
  | load code => exact h.hostLoad code
  | run => exact h.hostRun
  | halt => exact h.hostHalt
  | press k => exact h.hostPress k
  | release k => exact { h with }
  | tick => exact { h with }
  | display => exact h
  | isProgramLoaded => exact h
  | isRunning => exact h

/-- Settles O59: each kind of step keeps the invariant. -/
theorem everyStepKeepsInv : Obligations.EveryStepKeepsInv := by
  intro s t h ht
  rcases step_cases s with ⟨e, rest, -, hstep⟩ | ⟨rest, -, -, hstep⟩ | ⟨rest, -, hr, hstep⟩ | ⟨-, hr, hstep⟩ |
      ⟨-, -, hstep⟩ | ⟨-, -, hstep⟩ <;> rw [hstep] at ht
  · obtain rfl := Host.Outcome.next.inj ht
    exact (h.with_schedule rest).hostEvent e
  · obtain rfl := Host.Outcome.next.inj ht
    exact h.with_schedule rest
  · exact (h.with_schedule rest).fetchAndRun hr ht
  · exact h.fetchAndRun hr ht
  · cases ht
  · cases ht

end Sys2Proof.Machine
end

