-- ==== Sys2Proof/Proofs/Steps.lean ====
section
/-! One turn of core or host (00_scope.md R9, 30_encoding.md R63); what it does to FONT, RUN and the timers (10_state.md R24, R30,
70_reset_and_hazards.md R203); the step after a fatal condition (D29), and the step of a run that has ended (D23): O6, O9, O47,
O53, O55, O56 and O57. -/

namespace Sys2Proof.Machine

/-! ### One turn -/

/-- At a legal PC the core runs the instruction its word decodes to (R63). -/
theorem State.fetchAndRun_of_decodeWord {s : State} {i : Instr} (hp : s.pc.toNat ≤ 0xFFE) (hi : decodeWord s.fetch = .ok i) :
    s.fetchAndRun = exec i s := by
  rcases s.fetchAndRun_cases with ⟨hpast, -⟩ | ⟨-, ⟨e, he⟩, -⟩ | ⟨-, j, hj, hrun⟩
  · omega
  · cases he.symm.trans hi
  · cases hj.symm.trans hi
    exact hrun

/-- A scheduled turn of a running core fetches and runs, with the turn taken off the schedule (R9). -/
theorem step_of_core_turn {s : State} {rest : List Turn} (hr : s.run = .running) (hs : s.schedule = .core :: rest) :
    step s = State.fetchAndRun { s with schedule := rest } := by
  simp [step, State.takeTurn, hs, State.coreTurn, hr]

/-- A scheduled turn of a core that is not running passes (log 11). -/
theorem step_of_core_turn_passes {s : State} {rest : List Turn} (hr : s.run ≠ .running) (hs : s.schedule = .core :: rest) :
    step s = .next { s with schedule := rest } := by
  simp [step, State.takeTurn, hs, hr]

/-- A scheduled host event is a step (R9). -/
theorem step_of_host_turn {s : State} {e : HostEvent} {rest : List Turn} (hs : s.schedule = .host e :: rest) :
    step s = .next (hostEvent e { s with schedule := rest }).1 := by
  simp [step, State.takeTurn, hs]

/-- Settles O6: with and without a schedule the step is the fetch, and the fetched word decodes to `i`. -/
theorem stepRunsTheDecodedInstruction : Obligations.StepRunsTheDecodedInstruction := by
  intro s i hr hp hi
  constructor
  · intro hs
    rw [step_of_running hr hs, State.fetchAndRun_of_decodeWord hp hi]
  · intro rest hs
    rw [step_of_core_turn hr hs]
    exact State.fetchAndRun_of_decodeWord (s := { s with schedule := rest }) hp hi

/-- No host event changes an input of the step: FONT, or what is still scheduled (R30, log 11). -/
theorem hostEvent_keeps_inputs (e : HostEvent) (s : State) :
    (hostEvent e s).1.font = s.font ∧ (hostEvent e s).1.schedule = s.schedule := by
  cases e with
  | reset => simp only [hostEvent, hostReset]; split <;> exact ⟨rfl, rfl⟩
  | load code => simp only [hostEvent, hostLoad]; split_ifs <;> exact ⟨rfl, rfl⟩
  | run => simp only [hostEvent, hostRun]; split <;> exact ⟨rfl, rfl⟩
  | press k => simp only [hostEvent, hostPress]; split <;> exact ⟨rfl, rfl⟩
  | _ => exact ⟨rfl, rfl⟩

/-- Settles O9: the two kinds of turn, each by its equation. -/
theorem scheduledTurnIsOneTransition : Obligations.ScheduledTurnIsOneTransition :=
  fun _ _ => ⟨fun e hs => ⟨_, step_of_host_turn hs, rfl, (hostEvent_keeps_inputs e _).2⟩,
    fun hs hr => step_of_core_turn_passes hr hs⟩

/-! ### What a turn can do, with the core's part by its instruction -/

/-- Everything the core's step can do: stop on the fetch or the decode, or the effect of the instruction at PC. -/
theorem State.fetchAndRun_cases_effect {s t : State} (h : s.fetchAndRun = .next t) :
    (∃ k, k ≠ .none ∧ t = s.raise k) ∨ ∃ i, decodeWord s.fetch = .ok i ∧ exec i s = .next t := by
  rcases s.fetchAndRun_cases with ⟨-, hstop⟩ | ⟨-, -, hstop⟩ | ⟨-, i, hdecode, hexec⟩
  · exact .inl ⟨_, by decide, (Host.Outcome.next.inj (hstop.symm.trans h)).symm⟩
  · exact .inl ⟨_, by decide, (Host.Outcome.next.inj (hstop.symm.trans h)).symm⟩
  · exact .inr ⟨i, hdecode, hexec.symm.trans h⟩

/-- Everything a step with a next state can do: a host event, a core turn that passes, a fatal condition of the running core, or
the instruction at PC; each on the state with the turn taken off the schedule. -/
theorem step_next_cases {s t : State} (h : step s = .next t) :
    ∃ rest, (∃ e, s.schedule = .host e :: rest ∧ t = (hostEvent e { s with schedule := rest }).1) ∨
      t = { s with schedule := rest } ∨
      (s.run = .running ∧ ∃ k, k ≠ .none ∧ t = State.raise { s with schedule := rest } k) ∨
      (s.run = .running ∧ ∃ i, decodeWord s.fetch = .ok i ∧ exec i { s with schedule := rest } = .next t) := by
  rcases step_cases s with ⟨e, rest, hsched, hstep⟩ | ⟨rest, -, -, hstep⟩ | ⟨rest, -, hr, hstep⟩ | ⟨hsched, hr, hstep⟩ |
      ⟨-, -, hstep⟩ | ⟨-, -, hstep⟩ <;> rw [hstep] at h
  · exact ⟨rest, .inl ⟨e, hsched, (Host.Outcome.next.inj h).symm⟩⟩
  · exact ⟨rest, .inr (.inl (Host.Outcome.next.inj h).symm)⟩
  · rcases State.fetchAndRun_cases_effect h with hstop | hexec
    · exact ⟨rest, .inr (.inr (.inl ⟨hr, hstop⟩))⟩
    · exact ⟨rest, .inr (.inr (.inr ⟨hr, hexec⟩))⟩
  · have hsame : ({ s with schedule := [] } : State) = s := by rw [← hsched]
    refine ⟨[], ?_⟩
    rw [hsame]
    rcases State.fetchAndRun_cases_effect h with hstop | hexec
    · exact .inr (.inr (.inl ⟨hr, hstop⟩))
    · exact .inr (.inr (.inr ⟨hr, hexec⟩))
  · cases h
  · cases h

/-! ### FONT -/

theorem step_font {s t : State} (h : step s = .next t) : t.font = s.font := by
  obtain ⟨rest, ⟨e, -, rfl⟩ | rfl | ⟨-, k, -, rfl⟩ | ⟨-, i, -, hexec⟩⟩ := step_next_cases h
  · exact (hostEvent_keeps_inputs e _).1
  · rfl
  · rfl
  · obtain rfl := apply_effect_of_exec hexec
    exact State.apply_font _ _

/-- A reset machine holds FONT at 0x000 to 0x04F (R46). -/
theorem State.readByte_resetCore_of_lt (s : State) {a : Nat} (h : a < 80) : s.resetCore.readByte a = s.font[a] :=
  (s.readByte_resetCore a).trans (resetByte_of_lt h)

/-- A load leaves FONT in place: the program lies above it (R46, R191). -/
theorem readByte_hostLoad_of_lt {s : State} (code : List Byte) (hr : s.run = .idle) {a : Nat} (h : a < 80) :
    (hostLoad code s).1.readByte a = s.font[a] := by
  rcases Nat.lt_or_ge 3584 code.length with hlarge | hfits
  · rw [hostLoad_of_too_large hr hlarge]
    exact s.readByte_resetCore_of_lt h
  · rw [hostLoad_of_fits hr hfits, s.readByte_install_resetCore hfits, if_neg (by omega)]
    exact s.readByte_resetCore_of_lt h

/-- Settles O47: the input kept by the step, and the bytes below 0x050 after the two events. -/
theorem fontIsAnInputThatNoStepChanges : Obligations.FontIsAnInputThatNoStepChanges := by
  refine ⟨fun s t => step_font, fun s code a h hr => ⟨?_, readByte_hostLoad_of_lt code hr h⟩⟩
  have hreset : hostEvent .reset s = (s.resetCore, .done) := hostReset_of_idle hr
  rw [hreset]
  exact s.readByte_resetCore_of_lt h

/-! ### RUN -/

/-- A press that ends a key-wait (R162). -/
theorem hostPress_of_waitKey {s : State} (k : Nibble) (hr : s.run = .waitKey) :
    hostPress k s = ((s.latchKey k).wake k, .done) := if_pos hr

/-- The host events that change RUN: `run` of a loaded Idle core, `halt`, and a press that ends a key-wait (R24). -/
theorem hostEvent_changes_run {e : HostEvent} {s : State} (h : (hostEvent e s).1.run ≠ s.run) :
    (e = .run ∧ s.run = .idle ∧ s.loaded = true ∧ (hostEvent e s).1.run = .running) ∨
    (e = .halt ∧ (hostEvent e s).1.run = .idle) ∨
    (∃ k, e = .press k ∧ s.run = .waitKey ∧ (hostEvent e s).1.run = .running) := by
  cases e with
  | reset =>
    simp only [hostEvent, hostReset] at h
    split at h
    · exact absurd ‹s.run = .idle›.symm h
    · exact absurd rfl h
  | load code =>
    simp only [hostEvent, hostLoad] at h
    split_ifs at h with hr
    · exact absurd hr.symm h
    · exact absurd hr.symm h
    · exact absurd rfl h
  | run =>
    simp only [hostEvent, hostRun] at h
    split at h
    · rename_i hstart
      obtain ⟨hidle, hloaded⟩ := hstart
      exact .inl ⟨rfl, hidle, hloaded, congrArg (·.1.run) (hostRun_of_loaded_idle hidle hloaded)⟩
    · exact absurd rfl h
  | halt => exact .inr (.inl ⟨rfl, rfl⟩)
  | press k =>
    simp only [hostEvent, hostPress] at h
    split at h
    · rename_i hwait
      exact .inr (.inr ⟨k, rfl, hwait, congrArg (·.1.run) (hostPress_of_waitKey k hwait)⟩)
    · exact absurd rfl h
  | _ => exact absurd rfl h

/-- Settles O53: of the steps, the three host events, FX0A and the fatal conditions change RUN. -/
theorem runStateChangesOnlyByTheListedTransitions : Obligations.RunStateChangesOnlyByTheListedTransitions := by
  intro s t h hne
  obtain ⟨rest, ⟨e, hsched, rfl⟩ | rfl | ⟨hr, k, hk, rfl⟩ | ⟨hr, i, hdecode, hexec⟩⟩ := step_next_cases h
  · rcases hostEvent_changes_run hne with ⟨rfl, hidle, hloaded, hrun⟩ | ⟨rfl, hrun⟩ | ⟨k, rfl, hwait, hrun⟩
    · exact .inl ⟨hidle, hrun, hloaded, rest, hsched⟩
    · cases hr : s.run with
      | idle => exact absurd (hrun.trans hr.symm) hne
      | running => exact .inr (.inl ⟨rfl, hrun, .inl ⟨rest, hsched⟩⟩)
      | waitKey => exact .inr (.inr (.inr (.inr ⟨rfl, hrun, rest, hsched⟩)))
    · exact .inr (.inr (.inr (.inl ⟨hwait, hrun, k, rest, hsched⟩)))
  · exact absurd rfl hne
  · exact .inr (.inl ⟨hr, rfl, .inr ⟨hk, rfl, rfl⟩⟩)
  · rcases exec_completes_or_raises hexec with ⟨-, hrun | ⟨x, rfl⟩⟩ | ⟨k, hk, rfl⟩
    · exact absurd hrun hne
    · obtain rfl := apply_effect_of_exec hexec
      exact .inr (.inr (.inl ⟨hr, rfl, x, hdecode, rfl, rfl⟩))
    · exact .inr (.inl ⟨hr, rfl, .inr ⟨mayRaise_ne_none hk, rfl, rfl⟩⟩)

/-! ### The step after a fatal condition -/

/-- A step of the core into a latched condition, from a clear ERR, is the entry of that condition (R152). -/
theorem State.eq_raise_of_goneWrong {s t : State} (herr : s.err.kind = .none) (h : s.fetchAndRun = .next t) (ht : t.GoneWrong) :
    ∃ k, t = s.raise k := by
  rcases State.fetchAndRun_cases_effect h with ⟨k, -, hraise⟩ | ⟨i, -, hexec⟩
  · exact ⟨k, hraise⟩
  · rcases exec_completes_or_raises hexec with ⟨hkeep, -⟩ | ⟨k, -, hraise⟩
    · exact absurd (hkeep ▸ herr) ht
    · exact ⟨k, hraise⟩

/-- Settles O55: `run` undoes the entry of the condition, so the core is where it stood. -/
theorem runAfterAFaultFaultsAgain : Obligations.RunAfterAFaultFaultsAgain := by
  intro s t hinv hr hs hstep ht
  have hbusy : s.run ≠ .idle := by simp [hr]
  have herr : s.err = ⟨.none, 0#13⟩ := hinv.errClear hbusy
  obtain ⟨k, rfl⟩ := State.eq_raise_of_goneWrong (congrArg _ herr) ((step_of_running hr hs).symm.trans hstep) ht
  refine ⟨s, ?_, hstep⟩
  have hrun : hostRun (s.raise k) = ({ s with run := .running, err := ⟨.none, 0#13⟩ }, .done) :=
    hostRun_of_loaded_idle rfl (hinv.runningLoaded hbusy)
  rw [← hr, ← herr] at hrun
  exact hrun

/-! ### The timers -/

theorem toNat_countDown (b : Byte) : (countDown b).toNat = b.toNat - 1 := by
  unfold countDown
  split <;> bv_omega

/-- No host event makes a timer grow (R203). -/
theorem hostEvent_timers_le (e : HostEvent) (s : State) :
    (hostEvent e s).1.dt.toNat ≤ s.dt.toNat ∧ (hostEvent e s).1.st.toNat ≤ s.st.toNat := by
  cases e with
  | reset =>
    simp only [hostEvent, hostReset]
    split
    · exact ⟨Nat.zero_le _, Nat.zero_le _⟩
    · exact ⟨le_rfl, le_rfl⟩
  | load code =>
    simp only [hostEvent, hostLoad]
    split_ifs
    · exact ⟨Nat.zero_le _, Nat.zero_le _⟩
    · exact ⟨Nat.zero_le _, Nat.zero_le _⟩
    · exact ⟨le_rfl, le_rfl⟩
  | run => simp only [hostEvent, hostRun]; split <;> exact ⟨le_rfl, le_rfl⟩
  | press k => simp only [hostEvent, hostPress]; split <;> exact ⟨le_rfl, le_rfl⟩
  | tick =>
    simp only [hostEvent, hostTick, toNat_countDown]
    omega
  | _ => exact ⟨le_rfl, le_rfl⟩

/-- Settles O56: of the steps only an instruction makes a timer grow, and then its own one. -/
theorem timersGrowOnlyByTheirInstruction : Obligations.TimersGrowOnlyByTheirInstruction := by
  intro s t h
  obtain ⟨rest, ⟨e, -, rfl⟩ | rfl | ⟨-, k, -, rfl⟩ | ⟨hr, i, hdecode, hexec⟩⟩ := step_next_cases h
  · obtain ⟨hdt, hst⟩ := hostEvent_timers_le e { s with schedule := rest }
    exact ⟨fun hlt => absurd hdt (Nat.not_le.mpr hlt), fun hlt => absurd hst (Nat.not_le.mpr hlt)⟩
  · exact ⟨fun hlt => absurd hlt (Nat.lt_irrefl _), fun hlt => absurd hlt (Nat.lt_irrefl _)⟩
  · exact ⟨fun hlt => absurd hlt (Nat.lt_irrefl _), fun hlt => absurd hlt (Nat.lt_irrefl _)⟩
  · obtain rfl := apply_effect_of_exec hexec
    have he := effect_allowedTo { s with schedule := rest } i
    constructor
    · intro hlt
      by_cases hi : ∃ x, i = .ldDtVx x
      · obtain ⟨x, rfl⟩ := hi
        exact ⟨hr, x, hdecode⟩
      · rw [State.dt_apply_of_ne he (not_exists.mp hi)] at hlt
        exact absurd hlt (Nat.lt_irrefl _)
    · intro hlt
      by_cases hi : ∃ x, i = .ldStVx x
      · obtain ⟨x, rfl⟩ := hi
        exact ⟨hr, x, hdecode⟩
      · rw [State.st_apply_of_ne he (not_exists.mp hi)] at hlt
        exact absurd hlt (Nat.lt_irrefl _)

/-! ### A run that has ended -/

/-- Settles O57: the word at PC is a jump to PC. -/
theorem endedRunStepsInPlace : Obligations.EndedRunStepsInPlace := by
  rintro s a ⟨hr, hpc, hword⟩ ha hs
  have hat : s.pc.toNat = a.toNat := by rw [hpc, toNat_targetNNN]
  have hdecode : decodeWord s.fetch = .ok (.jp a) := by
    rw [State.fetch, hat, hword]
    exact decodeWord_encodeWord rfl
  have hp : s.pc.toNat ≤ 0xFFE := hat ▸ ha
  rw [step_of_running hr hs, State.fetchAndRun_of_decodeWord hp hdecode]
  exact congrArg (fun p => Host.Outcome.next { s with pc := p }) hpc.symm

end Sys2Proof.Machine
end

