-- ==== Sys2Proof/Proofs/RegisterOps.lean ====
section
/-! The instructions that write registers, timers or I and go on to the next word (41_alu.md, 42_index_memory.md section 2,
44_input_timers.md section 2), and the free byte of CXNN: O11 to O14, O22 and O34. -/

namespace Sys2Proof.Machine

/-- Settles O11: one register write and the advance; the logic results are bitwise by definition. -/
theorem moveAndLogicWriteOnlyTheDestination : Obligations.MoveAndLogicWriteOnlyTheDestination := by
  intro s x y
  refine ⟨⟨_, exec_eq_apply _ s, s.reg_setReg_self x _, fun z => s.reg_setReg_of_ne _, s.onlyRegs_setReg_advance x _⟩,
    ⟨_, exec_eq_apply _ s, fun n _ => ?_, fun z => s.reg_setReg_of_ne _, s.onlyRegs_setReg_advance x _⟩,
    ⟨_, exec_eq_apply _ s, fun n _ => ?_, fun z => s.reg_setReg_of_ne _, s.onlyRegs_setReg_advance x _⟩,
    ⟨_, exec_eq_apply _ s, fun n _ => ?_, fun z => s.reg_setReg_of_ne _, s.onlyRegs_setReg_advance x _⟩⟩
  · simp [State.apply, effect]
  · simp [State.apply, effect]
  · simp [State.apply, effect]

/-! ### The flag writers -/

/-- What a flag writer leaves: the result unless X is VF, the flag in VF, every other register as before, nothing else changed
(R101). -/
theorem State.setRegFlag_advance_spec (s : State) (x : Nibble) (b : Byte) (f : Bool) :
    (x ≠ 0xF#4 → (s.setRegFlag x b f).advance.reg x = b) ∧ (s.setRegFlag x b f).advance.reg 0xF#4 = flagByte f ∧
    (∀ z, z ≠ x → z ≠ 0xF#4 → (s.setRegFlag x b f).advance.reg z = s.reg z) ∧ s.OnlyRegs (s.setRegFlag x b f).advance := by
  refine ⟨fun hx => ?_, ?_, fun z hz hvf => ?_, rfl, fun _ => rfl⟩
  · simp [regVF, hx]
  · simp [regVF]
  · simp [regVF, hz, hvf]

@[simp] theorem toNat_flagByte (f : Bool) : (flagByte f).toNat = if f then 1 else 0 := by cases f <;> rfl

/-- The shape of the clauses on flag writers: the result and the flag of a `setRegFlag` as numbers. -/
theorem exec_flag_spec {i : Instr} {s : State} {x : Nibble} {b : Byte} {f : Bool} {result flag : Nat}
    (hi : effect s i = .flag x b f) (hresult : b.toNat = result) (hflag : (flagByte f).toNat = flag) :
    ∃ t, exec i s = .next t ∧ (x ≠ 0xF#4 → (t.reg x).toNat = result) ∧ (t.reg 0xF#4).toNat = flag ∧
      (∀ z, z ≠ x → z ≠ 0xF#4 → t.reg z = s.reg z) ∧ s.OnlyRegs t := by
  obtain ⟨hx, hvf, hother, hframe⟩ := s.setRegFlag_advance_spec x b f
  refine ⟨(s.setRegFlag x b f).advance, ?_, fun hne => ?_, ?_, hother, hframe⟩
  · rw [exec_eq_apply, hi]
    rfl
  · rw [hx hne, hresult]
  · rw [hvf, hflag]

theorem toNat_flagByte_carryOut (a b : Byte) : (flagByte (carryOut a b)).toNat = if a.toNat + b.toNat > 255 then 1 else 0 := by
  simp [carryOut]

theorem toNat_flagByte_notBorrow (a b : Byte) : (flagByte (notBorrow a b)).toNat = if a.toNat < b.toNat then 0 else 1 := by
  simp only [notBorrow, toNat_flagByte, decide_eq_true_eq]
  split_ifs <;> omega

/-- A byte difference, as a number. -/
theorem toNat_sub_byte (a b : Byte) : (a - b).toNat = (a.toNat + 256 - b.toNat) % 256 := by
  bv_omega

/-- Settles O12: result and flag of the three, as numbers. -/
theorem addAndSubtractWriteResultThenFlag : Obligations.AddAndSubtractWriteResultThenFlag := by
  intro s x y
  exact ⟨exec_flag_spec rfl (BitVec.toNat_add _ _) (toNat_flagByte_carryOut _ _),
    exec_flag_spec rfl (toNat_sub_byte _ _) (toNat_flagByte_notBorrow _ _),
    exec_flag_spec rfl (toNat_sub_byte _ _) (toNat_flagByte_notBorrow _ _)⟩

theorem toNat_flagByte_shiftedOutLow (a : Byte) : (flagByte (shiftedOutLow a)).toNat = a.toNat % 2 := by
  simp only [shiftedOutLow, toNat_flagByte, BitVec.getLsbD, Nat.testBit_zero, decide_eq_true_eq]
  split_ifs <;> omega

theorem toNat_flagByte_shiftedOutHigh (a : Byte) : (flagByte (shiftedOutHigh a)).toNat = a.toNat / 128 := by
  simp only [shiftedOutHigh, toNat_flagByte, BitVec.getLsbD, Nat.testBit_eq_decide_div_mod_eq, decide_eq_true_eq]
  split_ifs <;> omega

/-- Settles O13: result and flag of the two, as numbers. -/
theorem shiftsMoveOneBitIntoTheFlag : Obligations.ShiftsMoveOneBitIntoTheFlag := by
  intro s x y
  refine ⟨exec_flag_spec rfl ?_ (toNat_flagByte_shiftedOutLow _), exec_flag_spec rfl ?_ (toNat_flagByte_shiftedOutHigh _)⟩
  · rw [BitVec.toNat_ushiftRight, Nat.shiftRight_one]
  · rw [BitVec.toNat_shiftLeft, Nat.shiftLeft_eq, Nat.mul_comm]

/-! ### The free byte -/

/-- Settles O14: the mask bounds the byte bit by bit, hence as a number. -/
theorem randomIsAFreeByteUnderTheMask : Obligations.RandomIsAFreeByteUnderTheMask := by
  intro s x nn
  have hx : (s.apply (effect s (.rndVxNn x nn))).reg x = nn &&& Config.draw8 s.draws := State.reg_setReg_self _ x _
  refine ⟨_, exec_eq_apply _ s, fun n _ => ?_, ?_, fun z => State.reg_setReg_of_ne _ _, rfl, fun _ => rfl⟩
  · rw [hx, BitVec.getLsbD_and]
  · rw [hx, BitVec.toNat_and]
    exact Nat.and_le_left

/-! ### I and the timers -/

theorem toNat_indexPlus (s : State) (x : Nibble) : (s.indexPlus x).toNat = (s.i.toNat + (s.reg x).toNat) % 4096 := by
  rw [State.indexPlus, BitVec.toNat_add, BitVec.toNat_setWidth_of_le (by decide)]

/-- Five times a byte fits into I (R122, D27). -/
theorem toNat_glyphAddr (b : Byte) : (glyphAddr b).toNat = 5 * b.toNat := by
  rw [glyphAddr, BitVec.toNat_ofNat, Nat.mod_eq_of_lt (by omega)]

/-- Settles O22: the new I of each. -/
theorem indexInstructionsWriteOnlyI : Obligations.IndexInstructionsWriteOnlyI :=
  fun s x nnn => ⟨⟨_, exec_eq_apply (.ldINnn nnn) s, rfl, rfl, fun _ => rfl⟩,
    ⟨_, exec_eq_apply (.addIVx x) s, toNat_indexPlus s x, rfl, fun _ => rfl⟩,
    ⟨_, exec_eq_apply (.ldFVx x) s, toNat_glyphAddr _, rfl, fun _ => rfl⟩⟩

/-- Settles O34: a register write, and two updates that are `exec` by definition. -/
theorem timerInstructionsMoveOneByte : Obligations.TimerInstructionsMoveOneByte :=
  fun s x => ⟨⟨_, exec_eq_apply (.ldVxDt x) s, s.reg_setReg_self x _, fun _ => s.reg_setReg_of_ne _,
    s.onlyRegs_setReg_advance x _⟩, rfl, rfl⟩

end Sys2Proof.Machine
end

