-- ==== Sys2Proof/Proofs/ControlFlow.lean ====
section
/-! Skips, key skips, jumps, the legacy call, nested calls and the return that undoes its call (40_flow.md, 44_input_timers.md
section 1): O15, O16, O19, O20, O21 and O33. -/

namespace Sys2Proof.Machine

/-! ### Skips and jumps -/

/-- A skip, as one update of PC (R90). -/
theorem State.skipIf_eq (s : State) (taken : Bool) :
    s.skipIf taken = { s with pc := if taken = true then s.pc + 4#13 else s.pc + 2#13 } := by
  have hfour : s.npc + 2#13 = s.pc + 4#13 := BitVec.add_assoc s.pc 2#13 2#13
  rw [State.skipIf, hfour]
  rfl

/-- A skip that is taken when its condition fails. -/
theorem State.skipIf_not_eq (s : State) (c : Bool) :
    s.skipIf (!c) = { s with pc := if c = true then s.pc + 2#13 else s.pc + 4#13 } := by
  rw [State.skipIf_eq]
  cases c <;> rfl

theorem State.skipIf_beq (s : State) (a b : Byte) :
    s.skipIf (a == b) = { s with pc := if a = b then s.pc + 4#13 else s.pc + 2#13 } := by
  simp only [State.skipIf_eq, beq_iff_eq]

theorem State.skipIf_bne (s : State) (a b : Byte) :
    s.skipIf (a != b) = { s with pc := if a = b then s.pc + 2#13 else s.pc + 4#13 } := by
  simp only [bne, State.skipIf_not_eq, beq_iff_eq]

/-- Settles O15: a skip on equal operands, or on unequal ones. -/
theorem skipsMovePcByFourOrTwo : Obligations.SkipsMovePcByFourOrTwo :=
  fun s _ _ _ => ⟨congrArg Host.Outcome.next (s.skipIf_beq _ _), congrArg Host.Outcome.next (s.skipIf_bne _ _),
    congrArg Host.Outcome.next (s.skipIf_beq _ _), congrArg Host.Outcome.next (s.skipIf_bne _ _)⟩

/-- Settles O16: the two targets, as numbers. -/
theorem jumpsSetPcUnmasked : Obligations.JumpsSetPcUnmasked :=
  fun s nnn => ⟨⟨_, exec_eq_apply (.jp nnn) s, toNat_targetNNN nnn, rfl, fun _ => rfl⟩,
    ⟨_, exec_eq_apply (.jpV0Nnn nnn) s, s.toNat_targetV0 nnn, rfl, fun _ => rfl⟩⟩

/-- A legal key operand is the number of its key (R140, D26). -/
theorem keyOperand_of_toNat {b : Byte} {k : Fin 16} (h : b.toNat = k.val) :
    ∃ n, keyOperand b = some n ∧ regSlot n = k := by
  refine ⟨b.setWidth 4, keyOperand_of_le (by omega), Fin.ext ?_⟩
  rw [regSlot_val, BitVec.toNat_setWidth, Nat.mod_eq_of_lt (by omega), h]

/-- Settles O33: the two cases of the key operand. -/
theorem keySkipsReadTheKeyState : Obligations.KeySkipsReadTheKeyState := by
  intro s x
  constructor
  · intro k hk
    obtain ⟨n, hn, rfl⟩ := keyOperand_of_toNat hk
    constructor
    · rw [exec_eq_apply, effect, hn, keyEffect, State.apply, State.skipIf_eq]
      rfl
    · rw [exec_eq_apply, effect, hn, keyEffect, State.apply, State.skipIf_not_eq]
      rfl
  · intro hpast
    have hnone : keyOperand (s.reg x) = none := keyOperand_of_gt hpast
    constructor
    · refine ⟨_, ?_, s.stoppedBy_raise .invalidKeyIndex⟩
      rw [exec_eq_apply, effect, hnone, keyEffect, State.apply]
    · refine ⟨_, ?_, s.stoppedBy_raise .invalidKeyIndex⟩
      rw [exec_eq_apply, effect, hnone, keyEffect, State.apply]

/-- Settles O21: SYS stops whatever its operand, and the step runs it where its word is fetched. -/
theorem legacyCallStopsTheCore : Obligations.LegacyCallStopsTheCore := by
  intro s nnn hwf
  have hstop := s.stoppedBy_raise .unsupportedLegacyCall
  refine ⟨⟨_, exec_eq_apply (.sys nnn) s, hstop⟩, fun hr hs hp hword => ⟨_, ?_, hstop⟩⟩
  have hdecode : decodeWord s.fetch = .ok (.sys nnn) := by
    rw [State.fetch, hword]
    exact decodeWord_encodeWord (i := .sys nnn) hwf
  rw [step_of_running hr hs, State.fetchAndRun_of_decodeWord hp hdecode]
  exact exec_eq_apply (.sys nnn) s

/-! ### Calls and returns -/

/-- Settles O19: the slot of the call is the newest entry at the return. -/
theorem returnUndoesCall : Obligations.ReturnUndoesCall := by
  intro s t u nnn hroom hcall hslot hsp
  obtain rfl := Host.Outcome.next.inj ((exec_call_of_lt hroom).symm.trans hcall)
  have hentry : u.sp.val = s.sp.val + 1 := congrArg Fin.val hsp
  have hpushed : u.stk[s.sp.val] = s.pc + 2#13 := hslot.trans (Vector.getElem_set_self hroom)
  exact ⟨_, exec_ret_of_succ (n := ⟨s.sp.val, hroom⟩) hentry, hpushed, rfl, rfl⟩

/-- What a nest of calls needs of one call that finds room. -/
theorem exec_call_of_room {s : State} (nnn : Addr) (h : s.sp.val < 16) :
    ∃ t, exec (.call nnn) s = .next t ∧ t.sp.val = s.sp.val + 1 ∧ t.err = s.err ∧ t.run = s.run :=
  ⟨_, exec_call_of_lt h, rfl, rfl, rfl⟩

/-- Instructions one after another, the first by its outcome. -/
theorem execAll_cons {i : Instr} {is : List Instr} {s t : State} (h : exec i s = .next t) :
    execAll (i :: is) s = execAll is t := by
  rw [execAll, h]

/-- Calls that find room nest and leave ERR and RUN alone. -/
theorem execAll_call_of_room (targets : List Addr) (s : State) (h : s.sp.val + targets.length ≤ 16) :
    ∃ t, execAll (targets.map .call) s = some t ∧ t.sp.val = s.sp.val + targets.length ∧ t.err = s.err ∧ t.run = s.run := by
  induction targets generalizing s with
  | nil => exact ⟨s, rfl, rfl, rfl, rfl⟩
  | cons a targets ih =>
    rw [List.length_cons] at h ⊢
    obtain ⟨r, hcall, hspCall, herrCall, hrunCall⟩ := exec_call_of_room (s := s) a (by omega)
    obtain ⟨t, ht, hsp, herr, hrun⟩ := ih r (by omega)
    exact ⟨t, (execAll_cons hcall).trans ht, by omega, herr.trans herrCall, hrun.trans hrunCall⟩

/-- One call more than there is room for faults, with the stack full. -/
theorem execAll_call_past_room (targets : List Addr) (s : State) (h : s.sp.val + targets.length = 17) :
    ∃ t, execAll (targets.map .call) s = some t ∧ t.sp.val = 16 ∧ t.err.kind = .stackOverflow ∧ t.run = .idle := by
  induction targets generalizing s with
  | nil =>
    have hsp := s.sp.isLt
    rw [List.length_nil] at h
    omega
  | cons a targets ih =>
    rw [List.length_cons] at h
    rcases Nat.lt_or_ge s.sp.val 16 with hroom | hfull
    · obtain ⟨r, hcall, hsp, -, -⟩ := exec_call_of_room a hroom
      obtain ⟨t, ht, hstop⟩ := ih r (by omega)
      exact ⟨t, (execAll_cons hcall).trans ht, hstop⟩
    · have hsp : s.sp.val = 16 := by omega
      obtain rfl : targets = [] := List.eq_nil_of_length_eq_zero (by omega)
      exact ⟨_, execAll_cons (exec_call_full hsp), hsp, rfl, rfl⟩

/-- Settles O20: both cases from an empty stack. -/
theorem sixteenCallsNestAndTheSeventeenthFaults : Obligations.SixteenCallsNestAndTheSeventeenthFaults := by
  intro targets s hempty
  constructor
  · intro hfits
    have hnest := execAll_call_of_room targets s (by omega)
    rwa [hempty, Nat.zero_add] at hnest
  · intro hlong
    exact execAll_call_past_room targets s (by omega)

end Sys2Proof.Machine
end

