-- ==== Sys2Proof/Proofs/MemoryAccess.lean ====
section
/-! The canonical form as data, and the three accesses at I: FX33, FX55, FX65 (20_memory.md, 42_index_memory.md sections 3 and 4):
O23 to O28. -/

namespace Sys2Proof.Machine

/-! ### The canonical form -/

theorem Memory.eq_nil_of_reads_reset {f : Font} {lo : Nat} {m : Memory} (hm : Memory.wfFrom f lo m = true)
    (h : ∀ a, m.read f a = resetByte f a) : m = [] := by
  cases m with
  | nil => rfl
  | cons c m =>
    obtain ⟨a, v⟩ := c
    obtain ⟨-, -, hv, -⟩ := Memory.wfFrom_cons.mp hm
    have hread := h a
    rw [Memory.read_cons, if_pos rfl] at hread
    exact absurd hread hv

/-- The first listed addresses of memories that read alike: neither is below the other's. -/
theorem Memory.head_le_of_reads_eq {f : Font} {lo a b : Nat} {v u : Byte} {m n : Memory}
    (hm : Memory.wfFrom f lo ((a, v) :: m) = true) (hn : Memory.wfFrom f lo ((b, u) :: n) = true)
    (h : ∀ c, Memory.read f ((a, v) :: m) c = Memory.read f ((b, u) :: n) c) : b ≤ a := by
  by_contra hlt
  obtain ⟨-, -, hv, -⟩ := Memory.wfFrom_cons.mp hm
  obtain ⟨-, hrest⟩ := Memory.wfFrom_cons.mp hn
  have hfrom : Memory.wfFrom f b ((b, u) :: n) = true := Memory.wfFrom_cons.mpr ⟨le_rfl, hrest⟩
  have hread := h a
  rw [Memory.read_cons, if_pos rfl, Memory.read_below hfrom (by omega)] at hread
  exact hv hread

theorem Memory.eq_of_reads_eq {f : Font} {lo : Nat} {m n : Memory} (hm : Memory.wfFrom f lo m = true)
    (hn : Memory.wfFrom f lo n = true) (h : ∀ a, m.read f a = n.read f a) : m = n := by
  induction m generalizing n lo with
  | nil => exact (Memory.eq_nil_of_reads_reset hn fun a => (h a).symm).symm
  | cons c m ih =>
    obtain ⟨a, v⟩ := c
    cases n with
    | nil => exact Memory.eq_nil_of_reads_reset hm h
    | cons d n =>
      obtain ⟨b, u⟩ := d
      obtain rfl : a = b :=
        le_antisymm (Memory.head_le_of_reads_eq hn hm fun c => (h c).symm) (Memory.head_le_of_reads_eq hm hn h)
      obtain ⟨-, -, -, hm'⟩ := Memory.wfFrom_cons.mp hm
      obtain ⟨-, -, -, hn'⟩ := Memory.wfFrom_cons.mp hn
      have hv : v = u := by simpa [Memory.read_cons] using h a
      have htail : ∀ c, Memory.read f m c = Memory.read f n c := fun c => by
        rcases eq_or_ne c a with rfl | hc
        · rw [Memory.read_below hm' (Nat.lt_succ_self c), Memory.read_below hn' (Nat.lt_succ_self c)]
        · simpa [Memory.read_cons, hc] using h c
      rw [hv, ih hm' hn' htail]

/-- Settles O28: the first entries agree, and then the rest of the lists. -/
theorem canonicalMemoriesWithEqualReadsAreEqual : Obligations.CanonicalMemoriesWithEqualReadsAreEqual :=
  fun _ _ _ => Memory.eq_of_reads_eq

/-! ### An access at I, within bounds and past them -/

theorem exec_of_range_legal {i : Instr} {s : State} {n : Nat} {e : Effect} (hi : effect s i = s.rangeEffect n e)
    (h : s.i.toNat + n ≤ 4096) : exec i s = .next (s.apply e) := by
  rw [exec_eq_apply, hi, ← State.withRange_apply, State.withRange_of_le h]

theorem exec_of_range_past {i : Instr} {s : State} {n : Nat} {e : Effect} (hi : effect s i = s.rangeEffect n e)
    (h : 4096 < s.i.toNat + n) : exec i s = .next (s.raise .memoryOutOfBounds) := by
  rw [exec_eq_apply, hi, ← State.withRange_apply, State.withRange_of_lt h]

/-! ### FX33 -/

/-- The bytes after FX33, within bounds (R123). -/
theorem State.readByte_store_bcdDigits {s : State} (hm : s.mem.wf s.font = true) (b : Byte) (h : s.i.toNat + 3 ≤ 4096)
    (a : Nat) :
    (s.apply (.store (bcdDigits b))).readByte a =
      if a = s.i.toNat then BitVec.ofNat 8 (b.toNat / 100)
      else if a = s.i.toNat + 1 then BitVec.ofNat 8 (b.toNat / 10 % 10)
      else if a = s.i.toNat + 2 then BitVec.ofNat 8 (b.toNat % 10)
      else s.readByte a := by
  have hlen : (bcdDigits b).length = 3 := rfl
  refine (State.readByte_storeBytes hm (vs := bcdDigits b) h a).trans ?_
  rw [hlen]
  by_cases hin : s.i.toNat ≤ a ∧ a < s.i.toNat + 3
  · obtain rfl | rfl | rfl : a = s.i.toNat ∨ a = s.i.toNat + 1 ∨ a = s.i.toNat + 2 := by omega
    · simp [bcdDigits]
    · simp [bcdDigits]
    · simp [bcdDigits]
  · rw [if_neg hin, if_neg (by omega), if_neg (by omega), if_neg (by omega)]

/-- Settles O23: the digits are the bytes stored, and the bounds those of the range. -/
theorem bcdStoresThreeDigits : Obligations.BcdStoresThreeDigits := by
  intro s x hm
  constructor
  · intro hlegal
    have hroom : s.i.toNat + 3 ≤ 4096 := by omega
    have hread := State.readByte_store_bcdDigits hm (s.reg x) hroom
    have hbyte := (s.reg x).isLt
    have hhundreds : ((s.apply (.store (bcdDigits (s.reg x)))).readByte s.i.toNat).toNat = (s.reg x).toNat / 100 := by
      rw [hread, if_pos rfl, BitVec.toNat_ofNat]
      omega
    have htens : ((s.apply (.store (bcdDigits (s.reg x)))).readByte (s.i.toNat + 1)).toNat = (s.reg x).toNat / 10 % 10 := by
      rw [hread, if_neg (by omega), if_pos rfl, BitVec.toNat_ofNat]
      omega
    have hones : ((s.apply (.store (bcdDigits (s.reg x)))).readByte (s.i.toNat + 2)).toNat = (s.reg x).toNat % 10 := by
      rw [hread, if_neg (by omega), if_neg (by omega), if_pos rfl, BitVec.toNat_ofNat]
      omega
    refine ⟨_, exec_of_range_legal (e := .store _) rfl hroom, by omega, by omega, by omega, by omega, fun a ha => ?_, rfl⟩
    · rw [hread, if_neg (by omega), if_neg (by omega), if_neg (by omega)]
  · intro hpast
    exact ⟨_, exec_of_range_past (e := .store _) rfl (by omega), s.stoppedBy_raise _⟩

/-! ### FX55 -/

/-- The bytes after FX55, within bounds (R124). -/
theorem State.readByte_store_regsFrom {s : State} (hm : s.mem.wf s.font = true) (x : Nibble)
    (h : s.i.toNat + (x.toNat + 1) ≤ 4096) (a : Nat) :
    (s.apply (.store (s.regsFrom 0 (x.toNat + 1)))).readByte a =
      if s.i.toNat ≤ a ∧ a ≤ s.i.toNat + x.toNat then s.reg (BitVec.ofNat 4 (a - s.i.toNat)) else s.readByte a := by
  have hroom : s.i.toNat + (s.regsFrom 0 (x.toNat + 1)).length ≤ 4096 := by rwa [State.length_regsFrom]
  refine (State.readByte_storeBytes hm hroom a).trans ?_
  simp only [State.length_regsFrom, ← Nat.add_assoc, Nat.lt_succ_iff]
  split_ifs with hin
  · rw [State.getD_regsFrom _ _ _ _ (by omega), Nat.zero_add]
  · rfl

/-- Settles O24: the bytes stored, register by register, and the bounds those of the range. -/
theorem dumpStoresTheRegisters : Obligations.DumpStoresTheRegisters := by
  intro s x hm
  constructor
  · intro hlegal
    have hroom : s.i.toNat + (x.toNat + 1) ≤ 4096 := by omega
    have hread := State.readByte_store_regsFrom hm x hroom
    refine ⟨_, exec_of_range_legal (e := .store _) rfl hroom, fun z hz => ?_, fun a ha => ?_, rfl⟩
    · rw [hread, if_pos (by omega), Nat.add_sub_cancel_left, BitVec.ofNat_toNat, BitVec.setWidth_eq]
    · rw [hread, if_neg ha]
  · intro hpast
    exact ⟨_, exec_of_range_past (e := .store _) rfl (by omega), s.stoppedBy_raise _⟩

/-! ### FX65 -/

/-- The registers after FX65, within bounds (R125). -/
theorem State.reg_load_readBytes (s : State) (x z : Nibble) :
    (s.apply (.load (s.readBytes s.i.toNat (x.toNat + 1)))).reg z =
      if z.toNat ≤ x.toNat then s.readByte (s.i.toNat + z.toNat) else s.reg z := by
  have hregs : 0 + (s.readBytes s.i.toNat (x.toNat + 1)).length ≤ 16 := by
    rw [State.length_readBytes]
    omega
  refine (s.reg_setRegs 0 _ hregs z).trans ?_
  simp only [State.length_readBytes, Nat.zero_le, true_and, Nat.zero_add, Nat.lt_succ_iff, Nat.sub_zero]
  split_ifs with hz
  · exact s.getD_readBytes _ _ _ (Nat.lt_succ_of_le hz)
  · rfl

/-- Settles O25: the registers loaded, and the bounds those of the range. -/
theorem loadFillsTheRegisters : Obligations.LoadFillsTheRegisters := by
  intro s x
  constructor
  · intro hlegal
    refine ⟨_, exec_of_range_legal (e := .load _) rfl (by omega), fun z hz => ?_, fun z hz => ?_, rfl, fun _ => rfl⟩
    · rw [State.reg_load_readBytes, if_pos hz]
    · rw [State.reg_load_readBytes, if_neg (Nat.not_le.mpr hz)]
  · intro hpast
    exact ⟨_, exec_of_range_past (e := .load _) rfl (by omega), s.stoppedBy_raise _⟩

/-- Settles O26: FX65 reads the bytes that FX55 stored. -/
theorem loadAfterDumpRestoresTheRegisters : Obligations.LoadAfterDumpRestoresTheRegisters := by
  intro s t u x hm hlegal hdump hsame hi
  obtain ⟨hdumps, -⟩ := dumpStoresTheRegisters s x hm
  obtain ⟨t', hdump', hstored, -⟩ := hdumps hlegal
  obtain rfl := Host.Outcome.next.inj (hdump'.symm.trans hdump)
  obtain ⟨hloads, -⟩ := loadFillsTheRegisters u x
  obtain ⟨w, hload, hfilled, -⟩ := hloads (hi ▸ hlegal)
  exact ⟨w, hload, fun z hz => by rw [hfilled z hz, hi, hsame, hstored z hz]⟩

/-! ### What a fetch reads after a store -/

/-- A running core at a legal PC executes the store whose word stands there, goes on at the next word, and every later fetch reads
memory as the store left it (R50, R54). -/
theorem step_store {s : State} {i : Instr} {bs : List Byte} {n : Nat} {f : Nat → Byte} (hr : s.run = .running)
    (hs : s.schedule = []) (hp : s.pc.toNat ≤ 0xFFE) (hword : s.readWord s.pc.toNat = encodeWord i) (hwf : i.wf = true)
    (hi : effect s i = s.rangeEffect n (.store bs)) (hroom : s.i.toNat + n ≤ 4096)
    (hread : ∀ a, (s.apply (.store bs)).readByte a = f a) :
    ∃ t, step s = .next t ∧ t.pc = s.pc + 2#13 ∧ t.run = .running ∧ t.schedule = [] ∧ FetchesFrom t f := by
  have hdecode : decodeWord s.fetch = .ok i := by
    rw [State.fetch, hword]
    exact decodeWord_encodeWord hwf
  refine ⟨s.apply (.store bs), ?_, rfl, hr, hs, fetchesFrom_of_read hread⟩
  rw [step_of_running hr hs, State.fetchAndRun_of_decodeWord hp hdecode, exec_of_range_legal hi hroom]

/-- Settles O27: both stores, by the bytes each leaves. -/
theorem storeIsSeenByTheNextFetch : Obligations.StoreIsSeenByTheNextFetch := by
  intro s x hr hs hm hp
  constructor
  · intro hword hlegal
    have hroom : s.i.toNat + 3 ≤ 4096 := by omega
    exact step_store hr hs hp hword rfl rfl hroom (State.readByte_store_bcdDigits hm (s.reg x) hroom)
  · intro hword hlegal
    have hroom : s.i.toNat + (x.toNat + 1) ≤ 4096 := by omega
    exact step_store hr hs hp hword rfl rfl hroom (State.readByte_store_regsFrom hm x hroom)

end Sys2Proof.Machine
end

