-- ==== Sys2Proof/Proofs/Sprite.lean ====
section
/-! The display and its two instructions (43_display.md). A draw is a XOR with an image: of one cell, of a row, of the whole sprite;
each loop of R132 adds an image disjoint from those before it. O29 to O32. -/

namespace Sys2Proof.Machine

/-- Settles O29: the cells of the cleared display. -/
theorem clearEmptiesTheDisplay : Obligations.ClearEmptiesTheDisplay :=
  fun s => ⟨_, exec_eq_apply .cls s, Display.cell_clear, rfl, fun _ => rfl⟩

/-- Settles O31: the range of a sprite is that of its rows, clipped or not. -/
theorem drawPastMemoryStopsTheCore : Obligations.DrawPastMemoryStopsTheCore :=
  fun s _ _ _ hpast => ⟨_, exec_of_range_past (e := .draw _) rfl hpast, s.stoppedBy_raise _⟩

/-! ### Drawing an image -/

/-- A set of display cells, as its 1s. -/
abbrev Image := Fin 32 → Fin 64 → Bool

/-- One stretch of a draw: from `before` to `after` the cells are XORed with `img`, and a collision is noted where a cell that
was 1 lies under a 1 of it (R132). -/
def Draws (img : Image) (before after : Display × Bool) : Prop :=
  (∀ y x, after.1.cell y x = (before.1.cell y x ^^ img y x)) ∧
  (after.2 = true ↔ before.2 = true ∨ ∃ y x, before.1.cell y x = true ∧ img y x = true)

theorem draws_nothing {img : Image} (h : ∀ y x, img y x = false) (acc : Display × Bool) : Draws img acc acc :=
  ⟨fun y x => by rw [h, Bool.xor_false], by simp [h]⟩

/-- Two stretches whose images do not meet make one: the second finds its cells as the first found them. -/
theorem Draws.trans {f g k : Image} {a b c : Display × Bool} (hab : Draws f a b) (hbc : Draws g b c)
    (hunion : ∀ y x, k y x = (f y x || g y x)) (hdisjoint : ∀ y x, f y x = true → g y x = false) : Draws k a c := by
  obtain ⟨hcellB, hhitB⟩ := hab
  obtain ⟨hcellC, hhitC⟩ := hbc
  constructor
  · intro y x
    have hmeet := hdisjoint y x
    rw [hcellC, hcellB, hunion]
    cases hf : f y x
    · rw [Bool.xor_false, Bool.false_or]
    · rw [hmeet hf, Bool.xor_false, Bool.or_false]
  · have hunder : ∀ y x, g y x = true → b.1.cell y x = a.1.cell y x := fun y x hg => by
      have hf : f y x = false := by
        by_contra hf
        exact Bool.false_ne_true ((hdisjoint y x (Bool.eq_true_of_not_eq_false hf)).symm.trans hg)
      rw [hcellB, hf, Bool.xor_false]
    rw [hhitC, hhitB, or_assoc]
    refine or_congr_right ⟨?_, ?_⟩
    · rintro (⟨y, x, hcell, hf⟩ | ⟨y, x, hcell, hg⟩)
      · exact ⟨y, x, hcell, by rw [hunion, hf, Bool.true_or]⟩
      · exact ⟨y, x, hunder y x hg ▸ hcell, by rw [hunion, hg, Bool.or_true]⟩
    · rintro ⟨y, x, hcell, hk⟩
      rw [hunion, Bool.or_eq_true] at hk
      rcases hk with hf | hg
      · exact .inl ⟨y, x, hcell, hf⟩
      · exact .inr ⟨y, x, (hunder y x hg).trans hcell, hg⟩

/-- A loop draws what its passes draw, if each pass adds to the image a part disjoint from it. -/
theorem draws_foldl_range {pass : Display × Bool → Nat → Display × Bool} {part upTo : Nat → Image} (n : Nat)
    (hzero : ∀ y x, upTo 0 y x = false) (hpass : ∀ m < n, ∀ acc, Draws (part m) acc (pass acc m))
    (hsucc : ∀ m < n, ∀ y x, upTo (m + 1) y x = (upTo m y x || part m y x))
    (hdisjoint : ∀ m < n, ∀ y x, upTo m y x = true → part m y x = false) (acc : Display × Bool) :
    Draws (upTo n) acc ((List.range n).foldl pass acc) := by
  induction n with
  | zero => exact draws_nothing hzero acc
  | succ n ih =>
    rw [List.range_succ, List.foldl_append, List.foldl_cons, List.foldl_nil]
    have hbefore := ih (fun m hm => hpass m (by omega)) (fun m hm => hsucc m (by omega)) fun m hm => hdisjoint m (by omega)
    exact hbefore.trans (hpass n (by omega) _) (hsucc n (by omega)) (hdisjoint n (by omega))

/-! ### The columns of a row -/

/-- How many columns `x` lies to the right of `x0`, around the edge (R131). -/
def columnOffset (x0 : Nat) (x : Fin 64) : Nat := (x.val + 64 - x0 % 64) % 64

theorem eq_spriteCol_iff {x0 c : Nat} (hc : c < 64) (x : Fin 64) : x = spriteCol x0 c ↔ columnOffset x0 x = c := by
  rw [Fin.ext_iff, spriteCol, columnOffset]
  have hx := x.isLt
  simp only
  omega

/-- The image of the one sprite column `c` in display row `r`. -/
def columnImage (b : Byte) (x0 : Nat) (r : Fin 32) (c : Nat) : Image :=
  fun y x => decide (y = r ∧ columnOffset x0 x = c) && spriteBit b c

/-- The image of the sprite columns before `m` in display row `r`. -/
def columnsImage (b : Byte) (x0 : Nat) (r : Fin 32) (m : Nat) : Image :=
  fun y x => decide (y = r ∧ columnOffset x0 x < m) && spriteBit b (columnOffset x0 x)

theorem draws_drawCell (b : Byte) (x0 : Nat) (r : Fin 32) {c : Nat} (hc : c < 8) (acc : Display × Bool) :
    Draws (columnImage b x0 r c) acc (drawCell b x0 r acc c) := by
  obtain ⟨hcell, hhit⟩ := drawCell_spec b x0 r acc c
  have hcol := eq_spriteCol_iff (x0 := x0) (c := c) (by omega)
  constructor
  · intro y x
    simp only [hcell, columnImage, hcol]
    split_ifs with h <;> simp [h]
  · have hat := (hcol (spriteCol x0 c)).mp rfl
    simp only [hhit, columnImage, Bool.or_eq_true, Bool.and_eq_true, decide_eq_true_eq]
    refine or_congr_right ⟨?_, ?_⟩
    · rintro ⟨hold, hbit⟩
      exact ⟨r, spriteCol x0 c, hold, ⟨rfl, hat⟩, hbit⟩
    · rintro ⟨y, x, hold, ⟨rfl, hx⟩, hbit⟩
      rw [← (hcol x).mpr hx]
      exact ⟨hold, hbit⟩

/-- The eight columns of a sprite row (R131). -/
theorem draws_columns (b : Byte) (x0 : Nat) (r : Fin 32) (acc : Display × Bool) :
    Draws (columnsImage b x0 r 8) acc ((List.range 8).foldl (drawCell b x0 r) acc) := by
  refine draws_foldl_range 8 (upTo := columnsImage b x0 r) (fun y x => ?_) (fun m hm => draws_drawCell b x0 r hm)
    (fun m _ y x => ?_) (fun m _ y x h => ?_) acc
  · simp [columnsImage]
  · rcases eq_or_ne (columnOffset x0 x) m with rfl | hne
    · simp [columnsImage, columnImage]
    · have hlt : columnOffset x0 x < m + 1 ↔ columnOffset x0 x < m := by omega
      simp [columnsImage, columnImage, hne, hlt]
  · have hne : columnOffset x0 x ≠ m := by
      rintro rfl
      simp [columnsImage] at h
    simp [columnImage, hne]

/-! ### The rows of a sprite -/

/-- The image of the one sprite row `r` (R131): none where it is clipped. -/
def rowImage (byteAt : Nat → Byte) (i x0 y0 r : Nat) : Image :=
  fun y x => decide (y.val = y0 + r ∧ columnOffset x0 x < 8) && spriteBit (byteAt (i + r)) (columnOffset x0 x)

theorem draws_drawRow (byteAt : Nat → Byte) (i x0 y0 r : Nat) (acc : Display × Bool) :
    Draws (rowImage byteAt i x0 y0 r) acc (drawRow byteAt i x0 y0 acc r) := by
  unfold drawRow
  split
  · rename_i hrow
    have himage : rowImage byteAt i x0 y0 r = columnsImage (byteAt (i + r)) x0 ⟨y0 + r, hrow⟩ 8 := by
      funext y x
      simp only [rowImage, columnsImage, Fin.ext_iff]
    rw [himage]
    exact draws_columns _ _ _ acc
  · rename_i hclipped
    refine draws_nothing (fun y x => ?_) acc
    have hne : y.val ≠ y0 + r := by
      have hy := y.isLt
      omega
    simp [rowImage, hne]

theorem spriteImage_eq (byteAt : Nat → Byte) (i x0 y0 n : Nat) (y : Fin 32) (x : Fin 64) :
    spriteImage byteAt i x0 y0 n y x =
      (decide ((y0 ≤ y.val ∧ y.val < y0 + n) ∧ columnOffset x0 x < 8) &&
        spriteBit (byteAt (i + (y.val - y0))) (columnOffset x0 x)) := by
  have hoffset : (x.val + 64 - x0 % 64) % 64 = columnOffset x0 x := rfl
  simp only [spriteImage, spriteBit, hoffset, Bool.decide_and]

/-- The sprite draws its image (R131, R132). -/
theorem draws_drawSprite (byteAt : Nat → Byte) (i x0 y0 n : Nat) (d : Display) :
    Draws (spriteImage byteAt i x0 y0 n) (d, false) (drawSprite byteAt i x0 y0 n d) := by
  refine draws_foldl_range n (upTo := spriteImage byteAt i x0 y0) (fun y x => ?_)
    (fun m _ => draws_drawRow byteAt i x0 y0 m) (fun m _ y x => ?_) (fun m _ y x h => ?_) _
  · simp [spriteImage_eq]
  · rw [spriteImage_eq, spriteImage_eq, rowImage]
    rcases eq_or_ne y.val (y0 + m) with hy | hne
    · simp [hy]
    · have hlt : y.val < y0 + (m + 1) ↔ y.val < y0 + m := by omega
      simp [hne, hlt]
  · have hne : y.val ≠ y0 + m := by
      intro hy
      simp [spriteImage_eq, hy] at h
    simp [rowImage, hne]

theorem flagByte_eq_one_iff (f : Bool) : flagByte f = 1#8 ↔ f = true := by cases f <;> simp [flagByte]

/-- Settles O30: the display is XORed with the image, and VF tells a collision (R132). -/
theorem drawXorsTheSpriteImage : Obligations.DrawXorsTheSpriteImage := by
  intro s x y n hroom
  obtain ⟨hcell, hhit⟩ := draws_drawSprite s.readByte s.i.toNat (s.reg x).toNat (s.reg y).toNat n.toNat s.display
  rw [← flagByte_eq_one_iff] at hhit
  refine ⟨_, exec_of_range_legal (e := .draw _) rfl hroom, ?_⟩
  generalize drawSprite s.readByte s.i.toNat (s.reg x).toNat (s.reg y).toNat n.toNat s.display = drawn at hcell hhit
  have hvf : (s.apply (.draw drawn)).reg 0xF#4 = flagByte drawn.2 := State.reg_setReg_self _ regVF _
  refine ⟨fun r c => ?_, ?_, ?_, fun z => State.reg_setReg_of_ne _ _, rfl, fun _ => rfl⟩
  · rw [Bool.bne_eq_xor]
    exact hcell r c
  · rw [hvf]
    exact flagByte_zero_or_one drawn.2
  · rw [hvf, hhit]
    simp

/-- Settles O32: XORing with one image twice changes nothing, and the second draw finds a 1 of it where the first found a 0. -/
theorem drawingTwiceRestoresTheDisplay : Obligations.DrawingTwiceRestoresTheDisplay := by
  intro s t u x y n hroom hfirst hdisplay hbytes hi hx hy
  obtain ⟨t', hfirst', hcellT, -⟩ := drawXorsTheSpriteImage s x y n hroom
  obtain rfl := Host.Outcome.next.inj (hfirst'.symm.trans hfirst)
  obtain ⟨w, hsecond, hcellW, -, hhitW, -⟩ := drawXorsTheSpriteImage u x y n (hi ▸ hroom)
  rw [show u.readByte = s.readByte from funext hbytes, hi, hx, hy, hdisplay] at hcellW hhitW
  refine ⟨w, hsecond, Display.ext_cell fun r c => ?_, hhitW.trans ?_⟩
  · rw [hcellW, hcellT]
    simp
  · refine exists_congr fun r => exists_congr fun c => and_congr_left fun himage => ?_
    rw [hcellT, himage]
    simp

end Sys2Proof.Machine
end

