-- ==== Sys2Proof/Proofs/HostEvents.lean ====
section
/-! The key-wait, `tick`, `press`, `reset`, the refused events and power-on (44_input_timers.md section 3, 60_exceptions.md,
70_reset_and_hazards.md): O35, O36, O38, O42, O45 and O46. -/

namespace Sys2Proof.Machine

/-! ### Keys and the key-wait -/

/-- A press outside a key-wait (R162). -/
theorem hostPress_of_not_waiting {s : State} (k : Nibble) (hr : s.run ≠ .waitKey) : hostPress k s = (s.latchKey k, .done) :=
  if_neg hr

/-- Settles O38: the latch after the press, key by key. -/
theorem pressOutsideAWaitOnlyLatches : Obligations.PressOutsideAWaitOnlyLatches := by
  intro s k hr
  refine ⟨s.latchKey k, hostPress_of_not_waiting k hr, ?_, fun j hj => ?_, rfl⟩
  · rw [State.key_latchKey, if_pos rfl]
  · rw [State.key_latchKey, if_neg hj]

/-- Settles O35: the suspended state is a key-wait, whose press writes the register latched. -/
theorem keyWaitEndsByPressOrHalt : Obligations.KeyWaitEndsByPressOrHalt := by
  intro s x k
  refine ⟨s.suspend x, exec_eq_apply (.ldVxK x) s, rfl, fun _ => rfl, ?_, rfl, rfl, rfl, rfl, rfl⟩
  refine ⟨_, hostPress_of_waitKey k (s.suspend_run x), ?_, fun z hz => ?_, ?_, fun j hj => ?_, rfl⟩
  · have hx : (((s.suspend x).latchKey k).wake k).reg x = k.setWidth 8 := State.reg_setReg_self _ x _
    rw [hx, BitVec.toNat_setWidth_of_le (by decide)]
  · exact State.reg_setReg_of_ne _ _ hz
  · exact ((s.suspend x).key_latchKey k k).trans (if_pos rfl)
  · exact ((s.suspend x).key_latchKey k j).trans (if_neg hj)

/-- Settles O36: the countdown of each timer, as a number. -/
theorem tickCountsBothTimersDown : Obligations.TickCountsBothTimersDown :=
  fun s => ⟨_, rfl, toNat_countDown s.dt, toNat_countDown s.st, rfl⟩

/-! ### Reset, refusals and power-on -/

/-- Settles O42: the elements of a reset machine; memory is its reset content. -/
theorem resetSetsEveryElement : Obligations.ResetSetsEveryElement := by
  intro s hr
  refine ⟨s.resetCore, hostReset_of_idle hr, fun z => ?_, rfl, rfl, fun n => ?_, rfl, fun a h => ?_, fun a h => ?_,
    Display.cell_clear, rfl, rfl, rfl, rfl, rfl, rfl, rfl, rfl, rfl, rfl, rfl⟩
  · exact Vector.getElem_replicate _
  · exact Vector.getElem_replicate _
  · exact s.readByte_resetCore_of_lt h
  · rw [State.readByte_resetCore, resetByte_of_le h]

/-- Settles O45: the guard of each event fails. -/
theorem refusedEventsChangeNothing : Obligations.RefusedEventsChangeNothing :=
  fun _ _ => ⟨fun hr => ⟨if_neg hr, if_neg hr, hostRun_refused (.inl hr)⟩, fun hl => hostRun_refused (.inr hl)⟩

/-- From power-on a reset leaves the reset state, but for the inputs of the step (R35, R190). -/
theorem State.IsPowerOn.resetCore_eq {s : State} (h : s.IsPowerOn) :
    s.resetCore = { State.reset with font := s.font, draws := s.draws, schedule := s.schedule } := by
  obtain ⟨-, -, hkeys, hlast⟩ := h
  rw [State.resetCore, hkeys, hlast]
  rfl

/-- Settles O46: nothing is loaded before a load, and a loaded machine is Idle with ERR clear. -/
theorem powerOnRunsOnlyAfterALoad : Obligations.PowerOnRunsOnlyAfterALoad := by
  intro s h
  have ⟨hidle, hunloaded, _, _⟩ := h
  have hreset : hostEvent .reset s = (s.resetCore, .done) := hostReset_of_idle hidle
  have hrefused : hostEvent .run s.resetCore = (s.resetCore, .refused) := hostRun_refused (.inr rfl)
  refine ⟨hostRun_refused (.inr hunloaded), ?_, ?_, fun code hfits => ?_⟩
  · rw [hreset, h.resetCore_eq]
  · rw [hreset, hrefused]
  · have hload : hostEvent (.load code) s = (s.resetCore.install code, .done) := hostLoad_of_fits hidle hfits
    rw [hload]
    exact ⟨_, hostRun_of_loaded_idle rfl rfl, rfl, rfl, rfl⟩

end Sys2Proof.Machine
end
